-- ==== Sys2Proof/Word.lean ====
section
/-! DEFINITION. The fixed widths of SF16DEC as word types (00_scope.md R6, R7, R11). None of them is
configurable: a payload element has 8 bits, an assembled word or pattern 16, a command word 32, response data 64. -/

namespace Sys2Proof

/-- A payload element: an unsigned 8-bit integer (`BYTEW`, R6). -/
abbrev Byte := BitVec 8

/-- An assembled word, or a pattern read as a semi-float16 (`WORDW`, R6). -/
abbrev Word := BitVec 16

/-- A command word `CW` (`CMDW`, R7). -/
abbrev CommandWord := BitVec 32

/-- The data of a response (`DATAW`, R7). -/
abbrev Data := BitVec 64

end Sys2Proof
end

