-- ==== Sys2Proof/Machine/Codec.lean ====
section
/-! DEFINITION. The semi-float codec: the pure functions of 41_semifloat_codec.md R90 to R101 and the result formats
of 30_encoding.md R68 to R72, on integers as the rules give them. -/

namespace Sys2Proof.Machine

/-- `sf_mask(raw) = raw & 0xFFFF` (R90). -/
def sfMask (raw : Nat) : Word := BitVec.ofNat 16 (raw &&& 0xFFFF)

/-- `sf_sign(w) = w[15]` (R91): 1 is negative. -/
def sfSign (w : Word) : BitVec 1 := w.extractLsb' 15 1

/-- `sf_exp(w) = w[14:11]` (R91): the exponent as transmitted, biased by 15. -/
def sfExp (w : Word) : BitVec 4 := w.extractLsb' 11 4

/-- `sf_man(w) = w[10:0]` (R91): the mantissa as transmitted, with no hidden leading 1. -/
def sfMan (w : Word) : BitVec 11 := w.extractLsb' 0 11

/-- `msb(m)` for `m >= 1`: the index of the most significant 1 bit (00_scope.md R12). -/
def msb (m : Nat) : Nat := Nat.log2 m

/-- The `WORD` format: `zext_64(w)` (R68). -/
def wordData (w : Word) : Data := w.setWidth 64

/-- `sf_fields(w)`, the `FIELDS` format (R69, R100). -/
def sfFields (w : Word) : Data :=
  BitVec.ofNat 64 ((sfSign w).toNat <<< 24 ||| (sfExp w).toNat <<< 16 ||| (sfMan w).toNat)

/-- The biased binary64 exponent `E` of a pattern with mantissa `m`, not 0, and exponent field `e` (R96). -/
def f64Exponent (m e : Nat) : Nat := msb m + e + 997

/-- The binary64 fraction `F` of a pattern with mantissa `m`, not 0 (R96). -/
def f64Fraction (m : Nat) : Nat := (m - 2 ^ msb m) <<< (52 - msb m)

/-- `sf_to_f64(w)`, the binary64 pattern of a word: the `F64` format (R72, R96). Its first branch returns `s << 63`
for every zero-mantissa pattern, `0x8000` among them (R92, R98). -/
def sfToF64 (w : Word) : Data :=
  if (sfMan w).toNat = 0 then BitVec.ofNat 64 ((sfSign w).toNat <<< 63)
  else
    BitVec.ofNat 64
      ((sfSign w).toNat <<< 63 ||| f64Exponent (sfMan w).toNat (sfExp w).toNat <<< 52
        ||| f64Fraction (sfMan w).toNat)

/-- `sf_to_q26(w)`, the fixed-point integer of a word (R101). -/
def sfToQ26 (w : Word) : Int :=
  if sfSign w = 1#1 then -(((sfMan w).toNat <<< (sfExp w).toNat : Nat) : Int)
  else (((sfMan w).toNat <<< (sfExp w).toNat : Nat) : Int)

/-- The `Q26` format: `tc_64(q)`, 64-bit two's complement (R71; 00_scope.md R12). -/
def q26Data (w : Word) : Data := BitVec.ofInt 64 (sfToQ26 w)

end Sys2Proof.Machine
end

