-- ==== Sys2Proof/Config.lean ====
section
/-! DEFINITION. What one block fixes and the spec leaves open: the capacity `BUFSZ` of the payload buffer
(00_scope.md R7, decision D5, open point U13). `LATENCY`, the other open parameter, is read by no rule (R162) and
is left out with all timing. -/

namespace Sys2Proof

/-- The free part of the buffer's capacity: how far `BUFSZ` lies above its least value 6. It has no value in Lean:
whatever is proved holds for every capacity the spec allows. Notes: log entry 1. -/
opaque Config.bufExtra : Fin 16777211

/-- `BUFSZ`, the capacity in bytes of the payload buffer: some number with `6 <= BUFSZ <= 2^24` (R7, D5). -/
def BUFSZ : Nat := Config.bufExtra.val + 6

end Sys2Proof
end

