-- ==== Sys2Proof/Syntax.lean ====
section
/-! DEFINITION. The seven commands of SF16DEC (30_encoding.md R62, spec/opcode_table.json), one constructor a row.
Every command has one operand, a non-negative integer: a byte offset (R63) or a raw pattern (R64). -/

namespace Sys2Proof

/-- A command with its operand. The operand is an integer, as in the rules (R80 takes "an integer `off >= 0`",
R90 "any non-negative integer `raw`"); that it fits the operand field is `Instr.WellFormed`. -/
inductive Instr where
  /-- `ASM off`: the assembled word (R81). -/
  | asm (off : Nat)
  /-- `ASMX off`: the fields of the assembled word (R120). -/
  | asmx (off : Nat)
  /-- `ASMD off`: the binary64 value of the assembled word (R121). -/
  | asmd (off : Nat)
  /-- `ASMQ off`: the fixed-point value of the assembled word (R122). -/
  | asmq (off : Nat)
  /-- `SFX raw`: the fields of an immediate pattern (R103). -/
  | sfx (raw : Nat)
  /-- `SFD raw`: the binary64 value of an immediate pattern (R104). -/
  | sfd (raw : Nat)
  /-- `SFQ raw`: the fixed-point value of an immediate pattern (R105). -/
  | sfq (raw : Nat)
deriving DecidableEq, Repr

/-- The one operand of a command. -/
def Instr.operand : Instr → Nat
  | .asm off => off
  | .asmx off => off
  | .asmd off => off
  | .asmq off => off
  | .sfx raw => raw
  | .sfd raw => raw
  | .sfq raw => raw

end Sys2Proof
end

