-- ==== Sys2Proof/WellFormed.lean ====
section
/-! DEFINITION. Which commands have an encoding: the operand is a non-negative integer below `2^24`
(30_encoding.md R63, R64, R73). The operand field has no reserved bits, so nothing else is checked. -/

namespace Sys2Proof

/-- The operand fits the 24 bits of the operand field (R63 for an offset, R64 for a raw pattern). -/
abbrev Instr.WellFormed (i : Instr) : Prop := i.operand < 2 ^ 24

end Sys2Proof
end

