-- ==== Sys2Proof/Decode.lean ====
section
/-! DEFINITION. Decoding of command words, total on all 32-bit words and refusing reserved words by name
(30_encoding.md R60 to R65, R76), and the encoder (R62, R73). -/

namespace Sys2Proof

/-- Why a command word is reserved (R65). -/
inductive ReservedWord where
  /-- `CW[31:27] != 0`: the reserved bits of the opcode byte are not all zero. -/
  | rsvNonzero
  /-- `OPC = 0x04`: source `IMM` with output `WORD`. -/
  | immWord
deriving DecidableEq, Repr

/-- What a command word reads as: exactly one of the seven commands, or reserved (R76). -/
inductive Decoded where
  | instr (i : Instr)
  | reserved (why : ReservedWord)
deriving DecidableEq, Repr

/-- The opcode byte `OPC = CW[31:24]` (R60). -/
def opcField (cw : CommandWord) : BitVec 8 := cw.extractLsb' 24 8

/-- The operand field `OPD = CW[23:0]`, read as an unsigned integer, not scaled or shifted (R60, R63, R64). -/
def opdField (cw : CommandWord) : Nat := (cw.extractLsb' 0 24).toNat

/-- The decoder, in the order of the spec's own (R76). -/
def decode (cw : CommandWord) : Decoded :=
  if opcField cw = 0x00#8 then .instr (.asm (opdField cw))
  else if opcField cw = 0x01#8 then .instr (.asmx (opdField cw))
  else if opcField cw = 0x02#8 then .instr (.asmd (opdField cw))
  else if opcField cw = 0x03#8 then .instr (.asmq (opdField cw))
  else if opcField cw = 0x05#8 then .instr (.sfx (opdField cw))
  else if opcField cw = 0x06#8 then .instr (.sfd (opdField cw))
  else if opcField cw = 0x07#8 then .instr (.sfq (opdField cw))
  else if opcField cw = 0x04#8 then .reserved .immWord
  else .reserved .rsvNonzero

/-- The opcode byte of a command (R62). -/
def opcodeOf : Instr → BitVec 8
  | .asm _ => 0x00#8
  | .asmx _ => 0x01#8
  | .asmd _ => 0x02#8
  | .asmq _ => 0x03#8
  | .sfx _ => 0x05#8
  | .sfd _ => 0x06#8
  | .sfq _ => 0x07#8

/-- The command word of a command: `MNEMONIC n` is `(OPC << 24) | n` (R73). -/
def encode (i : Instr) : CommandWord :=
  BitVec.ofNat 32 ((opcodeOf i).toNat <<< 24 ||| i.operand)

/-- The command a bit pattern of `nbits` bits reads as, bits above `nbits` being 0. A command word is one 32-bit
value with no byte order (20_memory.md R42, R53), so more than 32 bits are no command word. -/
def decodeTableWord (nbits w : Nat) : Option Instr :=
  if nbits ≤ 32 then
    match decode (BitVec.ofNat 32 (w % 2 ^ nbits)) with
    | .instr i => some i
    | .reserved _ => none
  else none

end Sys2Proof
end

