-- ==== Sys2Proof/Machine/State.lean ====
section
/-! DEFINITION. The state of the block and of the host that drives it, as plain data (10_state.md R20 to R31), the
reasons a step can stop, and the state after reset (R30, 70_reset_and_hazards.md R151). -/

namespace Sys2Proof.Machine

/-- The two faults the block raises (60_exceptions.md R130, R131). They are answered in the response of the command
and the machine goes on: they are no `Fault` of the model. -/
inductive FaultCode where
  /-- At least one of the two bytes of the word lies at or beyond `LEN` (R132). -/
  | outOfRange
  /-- The command word is reserved (R134). -/
  | illegalCommand
deriving DecidableEq, Repr

/-- The block's answer to one command (30_encoding.md R66). The data of a fault response is unspecified, so a fault
response carries none (U1, log entry 3). -/
inductive Response where
  | ok (data : Data)
  | fault (code : FaultCode)
deriving DecidableEq, Repr

/-- What the host (or the platform) can do to the block (00_scope.md R9, R13; 70_reset_and_hazards.md R150). -/
inductive HostAction where
  /-- `RESET` (R150). -/
  | reset
  /-- `HostWriteByte(i, b)` (R13). -/
  | writeByte (i : Nat) (b : Byte)
  /-- `HostSetLen(n)` (R13). -/
  | setLen (n : Nat)
  /-- A command word is issued and the block answers it (R60). -/
  | command (cw : CommandWord)
  /-- A command word is issued and `RESET` occurs while it is outstanding: it is abandoned (R150, log entry 7). -/
  | abandoned (cw : CommandWord)
deriving DecidableEq, Repr

/-- The payload buffer `BUF`: the bytes written since the last `RESET`, by index. An index that is not listed holds
no value (R30, R154, U2; log entry 2). -/
abbrev Memory := List Host.Cell

/-- The canonical form: indices strictly rising. (An unlisted index has no value, so no entry can repeat it.) -/
abbrev Memory.wf (m : Memory) : Prop := m.Pairwise (fun c d => c.1 < d.1)

/-- The state of one block and of its host. -/
structure State where
  /-- `BUF`, the payload buffer (R20, R21). -/
  buf : Memory
  /-- `LEN`, the payload length register (R20, R24). -/
  len : Nat
  /-- The response port: the response of the command just completed; `none` where the spec fixes nothing of what it
  shows (R27, R30, R151; log entry 5). -/
  port : Option Response
  /-- The model's own: the host's actions not yet performed, oldest first (20_memory.md R50; log entry 4). -/
  pending : List HostAction
  /-- The model's own: the responses returned so far, oldest first (R50; log entry 6). -/
  responses : List Response
deriving DecidableEq, Repr

/-- Why the model stops with a fault. -/
inductive Fault where
  /-- Raised by ASM, ASMX, ASMD, ASMQ when the word is in range but one of its two bytes has not been written since
  the last `RESET`: "a model treats a read of such a byte as a fault of the model" (R154, U2). Safe: the model stops
  where a block would answer with some unspecified word. -/
  | unwrittenByte
deriving DecidableEq, Repr

/-- Why the model gives a step no meaning. -/
inductive Refusal where
  /-- An instruction without a meaning yet. None is left. Safe. -/
  | notModelled (mnemonic : String)
  /-- Raised by `HostWriteByte(i, b)` with `i >= BUFSZ`, an action outside the contract (R159, U4). Safe. -/
  | writeBeyondBuffer
  /-- Raised by `HostSetLen(n)` with `n > BUFSZ`, an action outside the contract (R24, R159, U4). Safe. -/
  | lenBeyondBuffer
deriving DecidableEq, Repr

/-- The state right after reset: `LEN` is 0, no byte has a value, no response is pending (R30, R151). The host has
nothing to do and has received nothing (log entries 4 and 6). -/
def State.reset : State where
  buf := []
  len := 0
  port := none
  pending := []
  responses := []

end Sys2Proof.Machine
end

