-- ==== Sys2Proof/Machine/Flags.lean ====
section
/-! DEFINITION. The block has no flags, condition codes or predicates (10_state.md R25): the outcome of a command is
wholly in its response. What stands in their place is the status of a response, computed here (60_exceptions.md
R131), and the data the host may use (70_reset_and_hazards.md R158). -/

namespace Sys2Proof.Machine

/-- The status code of a fault (R131). -/
def FaultCode.status : FaultCode → BitVec 2
  | .outOfRange => 1#2
  | .illegalCommand => 2#2

/-- The 2-bit status of a response (R66, R131): 0 `OK`, 1 `OutOfRange`, 2 `IllegalCommand`. -/
def Response.status : Response → BitVec 2
  | .ok _ => 0#2
  | .fault code => code.status

/-- The data the host may use: that of an `OK` response (R66, R158). -/
def Response.usableData : Response → Option Data
  | .ok data => some data
  | .fault _ => none

end Sys2Proof.Machine
end

