-- ==== Sys2Proof/Machine/Ops.lean ====
section
/-! DEFINITION. The named operations over the state: reading and writing the payload buffer (20_memory.md R42, R45),
presenting a response (00_scope.md R13), and raising a fault, which is all there is to "trap entry" on this block
(60_exceptions.md R138). There is no trap return (R140): the next command runs as any other. -/

namespace Sys2Proof.Machine

/-- `BUF[i]`: the byte last written to index `i` since `RESET`, if any (R43, U2). -/
def readByte : Memory → Nat → Option Byte
  | [], _ => none
  | (a, b) :: m, i => if a = i then some b else readByte m i

/-- `BUF[i] <- b`, keeping the indices strictly rising (R13). -/
def writeByte : Memory → Nat → Byte → Memory
  | [], i, b => [(i, b)]
  | (a, c) :: m, i, b =>
    if i < a then (i, b) :: (a, c) :: m
    else if i = a then (i, b) :: m
    else (a, c) :: writeByte m i b

/-- `MemRead(off, 2) = {BUF[off], BUF[off+1]}`: big-endian, the byte at the lower offset is the most significant
(R42). No value where one of the two bytes has none. -/
def readWord (m : Memory) (off : Nat) : Option Word :=
  match readByte m off, readByte m (off + 1) with
  | some hi, some lo => some (hi ++ lo)
  | _, _ => none

/-- `respond(st, d)`: present the response of the command, which the host receives (R13, R66). -/
def State.respond (s : State) (r : Response) : State :=
  { s with port := some r, responses := s.responses ++ [r] }

/-- `raise F`: end the command with the response of the fault. Nothing is saved, no mode or mask changes, control
goes nowhere, and `BUF` and `LEN` are exactly as before (R13, R138). -/
def State.raise (s : State) (f : FaultCode) : State :=
  s.respond (.fault f)

/-- The payload buffer replaced; the response port shows nothing the spec fixes any more (R27). -/
def State.withBuf (s : State) (m : Memory) : State :=
  { s with buf := m, port := none }

/-- The length register replaced; the response port shows nothing the spec fixes any more (R27). -/
def State.withLen (s : State) (n : Nat) : State :=
  { s with len := n, port := none }

/-- The host's remaining actions replaced. -/
def State.withPending (s : State) (p : List HostAction) : State :=
  { s with pending := p }

end Sys2Proof.Machine
end

