-- ==== Sys2Proof/Machine/Operands.lean ====
section
/-! DEFINITION. The two operand forms of a command and what each does: a byte offset, which the word assembler turns
into a word of the payload (30_encoding.md R63, 40_word_assembler.md R80), and an immediate raw pattern, which the
codec's mask turns into a word (R64, R90). A command is one of the two with a result format. -/

namespace Sys2Proof.Machine

/-- What the word assembler gives for an offset. -/
inductive Assembled where
  /-- The word at the offset. -/
  | word (w : Word)
  /-- The range check failed; no byte was read (R80). -/
  | outOfRange
  /-- The range check passed and one of the two bytes has no value (R154). -/
  | unwritten
deriving DecidableEq, Repr

/-- `assemble(off)` (R80): the range check first, in unbounded integers, then the two bytes. -/
def assemble (s : State) (off : Nat) : Assembled :=
  if off + 1 < s.len then
    match readWord s.buf off with
    | some w => .word w
    | none => .unwritten
  else .outOfRange

/-- A command whose word comes from `BUF` at a byte offset and whose response data is `f` of it (R81, R120 to
R123). -/
def bufCommand (f : Word → Data) (off : Nat) (s : State) : Host.Outcome State Fault Refusal :=
  match assemble s off with
  | .word w => .next (s.respond (.ok (f w)))
  | .outOfRange => .next (s.raise .outOfRange)
  | .unwritten => .fault .unwrittenByte

/-- A command whose word is its immediate operand, masked to 16 bits, and whose response data is `f` of it (R103 to
R105). It reads no state. -/
def immCommand (f : Word → Data) (raw : Nat) (s : State) : Host.Outcome State Fault Refusal :=
  .next (s.respond (.ok (f (sfMask raw))))

end Sys2Proof.Machine
end

