-- ==== Sys2Proof/Machine/AssembleConvert.lean ====
section
/-! DEFINITION. The third command family: assemble a word and hand it at once to the codec (42_assemble_decode.md).
The codec's mask is still applied to the assembled word (R123). -/

namespace Sys2Proof.Machine

/-- `ASMX off`: sign, exponent and mantissa of the assembled word (R120). -/
def execAsmx (off : Nat) (s : State) : Host.Outcome State Fault Refusal :=
  bufCommand (fun w => sfFields (sfMask w.toNat)) off s

/-- `ASMD off`: the assembled word as binary64 (R121). -/
def execAsmd (off : Nat) (s : State) : Host.Outcome State Fault Refusal :=
  bufCommand (fun w => sfToF64 (sfMask w.toNat)) off s

/-- `ASMQ off`: the assembled word as `Q26` fixed point (R122). -/
def execAsmq (off : Nat) (s : State) : Host.Outcome State Fault Refusal :=
  bufCommand (fun w => q26Data (sfMask w.toNat)) off s

end Sys2Proof.Machine
end

