-- ==== Sys2Proof/Machine/Assembler.lean ====
section
/-! DEFINITION. The first command family: the big-endian word assembler (40_word_assembler.md). -/

namespace Sys2Proof.Machine

/-- `ASM off`: the assembled word, zero-extended (R81, R68). -/
def execAsm (off : Nat) (s : State) : Host.Outcome State Fault Refusal :=
  bufCommand wordData off s

end Sys2Proof.Machine
end

