-- ==== Sys2Proof/Machine/SemiFloat.lean ====
section
/-! DEFINITION. The second command family: the semi-float codec on an immediate pattern (41_semifloat_codec.md). -/

namespace Sys2Proof.Machine

/-- `SFX raw`: sign, exponent and mantissa of the masked pattern (R103). -/
def execSfx (raw : Nat) (s : State) : Host.Outcome State Fault Refusal :=
  immCommand sfFields raw s

/-- `SFD raw`: the masked pattern as binary64 (R104). -/
def execSfd (raw : Nat) (s : State) : Host.Outcome State Fault Refusal :=
  immCommand sfToF64 raw s

/-- `SFQ raw`: the masked pattern as `Q26` fixed point (R105). -/
def execSfq (raw : Nat) (s : State) : Host.Outcome State Fault Refusal :=
  immCommand q26Data raw s

end Sys2Proof.Machine
end

