-- ==== Sys2Proof/Machine/Dispatch.lean ====
section
/-! DEFINITION. Which meaning each command has: one arm a constructor. -/

namespace Sys2Proof.Machine

/-- The effect of a decoded command. -/
def exec (i : Instr) (s : State) : Host.Outcome State Fault Refusal :=
  match i with
  | .asm off => Sys2Proof.Machine.execAsm off s
  | .asmx off => Sys2Proof.Machine.execAsmx off s
  | .asmd off => Sys2Proof.Machine.execAsmd off s
  | .asmq off => Sys2Proof.Machine.execAsmq off s
  | .sfx raw => Sys2Proof.Machine.execSfx raw s
  | .sfd raw => Sys2Proof.Machine.execSfd raw s
  | .sfq raw => Sys2Proof.Machine.execSfq raw s

end Sys2Proof.Machine
end

