-- ==== Sys2Proof/Machine/HostActions.lean ====
section
/-! DEFINITION. The host's actions: `RESET`, `HostWriteByte`, `HostSetLen` (70_reset_and_hazards.md R150 to R154,
R159), the answer to a reserved command word (60_exceptions.md R134), and the host script `LOAD` (R153). -/

namespace Sys2Proof.Machine

/-- The host's next action and the state once it is taken off the host's list; nothing where the host has no action
left. -/
def nextAction (s : State) : Option (HostAction × State) :=
  match s.pending with
  | [] => none
  | a :: rest => some (a, s.withPending rest)

/-- The state of the block after `RESET`; the host keeps its list of actions and what it has received (R151). -/
def State.afterReset (s : State) : State :=
  { State.reset with pending := s.pending, responses := s.responses }

/-- `RESET` (R150, R151). -/
def hostReset (s : State) : Host.Outcome State Fault Refusal :=
  .next s.afterReset

/-- A command that `RESET` overtakes: it is abandoned and yields no response, whatever its word (R150). -/
def hostAbandon (_cw : CommandWord) (s : State) : Host.Outcome State Fault Refusal :=
  .next s.afterReset

/-- `HostWriteByte(i, b)`: `BUF[i] <- b`; outside the contract, and refused, when `i >= BUFSZ` (R13, R159). -/
def hostWriteByte (i : Nat) (b : Byte) (s : State) : Host.Outcome State Fault Refusal :=
  if i < BUFSZ then .next (s.withBuf (writeByte s.buf i b)) else .refused .writeBeyondBuffer

/-- `HostSetLen(n)`: `LEN <- n`; outside the contract, and refused, when `n > BUFSZ` (R13, R24, R159). -/
def hostSetLen (n : Nat) (s : State) : Host.Outcome State Fault Refusal :=
  if n ≤ BUFSZ then .next (s.withLen n) else .refused .lenBeyondBuffer

/-- A reserved command word raises `IllegalCommand`, whatever its operand bits (R65, R134, R136). -/
def illegalCommand (_why : ReservedWord) (s : State) : Host.Outcome State Fault Refusal :=
  .next (s.raise .illegalCommand)

/-- `HostWriteByte` of consecutive bytes from index `i` on. -/
def writeActions : Nat → List Byte → List HostAction
  | _, [] => []
  | i, b :: bs => .writeByte i b :: writeActions (i + 1) bs

/-- `LOAD b0 .. b(n-1)`: write every byte, then set the length (R73, R153). -/
def loadActions (bs : List Byte) : List HostAction :=
  writeActions 0 bs ++ [.setLen bs.length]

end Sys2Proof.Machine
end

