-- ==== Sys2Proof/Machine/Step.lean ====
section
/-! DEFINITION. One step: the host's next action is performed (20_memory.md R47, R50). A command word is decoded and
its command executed, or answered with `IllegalCommand` (30_encoding.md R76). With no action left the block does
nothing (00_scope.md R9). -/

namespace Sys2Proof.Machine

/-- One step of the block and its host. -/
def step (s : State) : Host.Outcome State Fault Refusal :=
  match nextAction s with
  | none => .next s
  | some (.reset, t) => hostReset t
  | some (.writeByte i b, t) => hostWriteByte i b t
  | some (.setLen n, t) => hostSetLen n t
  | some (.abandoned cw, t) => hostAbandon cw t
  | some (.command cw, t) =>
    match decode cw with
    | .instr i => exec i t
    | .reserved why => illegalCommand why t

/-- `s` with the host about to present the command word of `nbits` bits `w` (bits above `nbits` zero), so that the
next step runs it. It stands for the host's presenting a command (R23); log entry 4. -/
def State.withFetchWord (s : State) (nbits w : Nat) : State :=
  s.withPending (.command (BitVec.ofNat 32 (w % 2 ^ nbits)) :: s.pending)

end Sys2Proof.Machine
end

