-- ==== Sys2Proof/Machine/ByteMux.lean ====
section
/-! DEFINITION. The byte mux of a realisation that reads `BUF` a byte at a time (40_word_assembler.md R83, 10_state.md
R29): a high-byte latch and a select bit. They are no architectural state and no command can observe them, so they
are no field of `State`; what is stated of this realisation is that it gives the word of `readWord`. -/

namespace Sys2Proof.Machine

/-- The high-byte latch and the select bit (R29). -/
structure ByteMux where
  latch : Byte
  select : BitVec 1
deriving DecidableEq, Repr

/-- One byte goes through the mux. With the select bit at 0 it is steered to the high half and held in the latch;
with the select bit at 1 it is steered to the low half, and the word `{latch, second byte}` is complete (R83). -/
def muxByte (x : ByteMux) (b : Byte) : ByteMux × Option Word :=
  if x.select = 0#1 then ({ latch := b, select := 1#1 }, none)
  else ({ latch := x.latch, select := 0#1 }, some (x.latch ++ b))

/-- The two reads of a command in sequence, from a mux whose select bit the command has put to 0 (R83). -/
def serialWord (latch : Byte) (m : Memory) (off : Nat) : Option Word :=
  match readByte m off with
  | none => none
  | some first =>
    match readByte m (off + 1) with
    | none => none
    | some second => (muxByte (muxByte { latch := latch, select := 0#1 } first).1 second).2

end Sys2Proof.Machine
end

