-- ==== Sys2Proof/Machine/Value.lean ====
section
/-! DEFINITION. What patterns stand for: the exact value of a semi-float16 (41_semifloat_codec.md R93), the value of a
binary64 pattern (30_encoding.md R72), and the source's own algorithm evaluated in binary64 arithmetic (R92, R99,
41_semifloat_codec.md section 1). No command calls these: they are what the commands' results are held against. -/

namespace Sys2Proof.Machine

/-- `sf_value(w) = (-1)^s * (m / 2048) * 2^(e - 15)`, the exact real a pattern stands for (R93). -/
def sfValue (w : Word) : ℚ :=
  (-1) ^ (sfSign w).toNat * (((sfMan w).toNat : ℚ) / 2048) * 2 ^ (((sfExp w).toNat : ℤ) - 15)

/-- Bit 63 of a binary64 pattern, its sign (R72). -/
def f64Sign (d : Data) : BitVec 1 := d.extractLsb' 63 1

/-- Bits 62:52 of a binary64 pattern, its biased exponent (R72). -/
def f64Exp (d : Data) : BitVec 11 := d.extractLsb' 52 11

/-- Bits 51:0 of a binary64 pattern, its fraction (R72). -/
def f64Frac (d : Data) : BitVec 52 := d.extractLsb' 0 52

/-- The value of a binary64 pattern where R72 gives one: a zero of either sign or a normal number. Nothing for a
subnormal number, an infinity or a NaN, to which R72 gives none and which the block never produces. -/
def f64Value (d : Data) : Option ℚ :=
  if (f64Exp d).toNat = 0 then
    if (f64Frac d).toNat = 0 then some 0 else none
  else if (f64Exp d).toNat = 2047 then none
  else some ((-1) ^ (f64Sign d).toNat * 2 ^ (((f64Exp d).toNat : ℤ) - 1023) * (1 + ((f64Frac d).toNat : ℚ) / 2 ^ 52))

/-- The binary64 pattern of `(-1)^s * n * 2^k` where that is a zero or exactly a normal number, and nothing where it
is not (log entry 11). A zero has the sign `s` (GK2 of 93_implementation_defined.md). -/
def f64OfScaled (s : BitVec 1) (n : Nat) (k : Int) : Option Data :=
  if n = 0 then some (BitVec.ofNat 64 (s.toNat <<< 63))
  else
    let p := msb n
    let e := (p : Int) + k + 1023
    if 1 ≤ e ∧ e ≤ 2046 ∧ (52 < p → n % 2 ^ (p - 52) = 0) then
      let f := if p ≤ 52 then (n - 2 ^ p) * 2 ^ (52 - p) else n / 2 ^ (p - 52) - 2 ^ 52
      some (BitVec.ofNat 64 (s.toNat <<< 63 ||| e.toNat <<< 52 ||| f))
    else none

/-- A binary64 zero or normal number as sign, significand and exponent: `(-1)^s * n * 2^k` (R72). -/
def f64Parts (d : Data) : Option (BitVec 1 × Nat × Int) :=
  if (f64Exp d).toNat = 0 then
    if (f64Frac d).toNat = 0 then some (f64Sign d, 0, 0) else none
  else if (f64Exp d).toNat = 2047 then none
  else some (f64Sign d, 2 ^ 52 + (f64Frac d).toNat, ((f64Exp d).toNat : Int) - 1075)

/-- The binary64 product, where it is a zero or exactly a normal number: the sign is the exclusive-or of the signs
also when a factor is zero, and an exact product is not rounded (GK2). Nothing where it would be rounded (log entry
11). -/
def f64Mul (a b : Data) : Option Data :=
  match f64Parts a, f64Parts b with
  | some (s, n, k), some (t, m, l) => f64OfScaled (s ^^^ t) (n * m) (k + l)
  | _, _ => none

/-- The order in which the source's two multiplications are evaluated (R99). -/
inductive MulOrder where
  /-- `(sign * mantissaFraction) * 2^(exponent - 15)`, as written. -/
  | asWritten
  /-- `sign * (mantissaFraction * 2^(exponent - 15))`. -/
  | signLast
  /-- `(sign * 2^(exponent - 15)) * mantissaFraction`. -/
  | fractionLast
deriving DecidableEq, Repr

/-- Step 3 of the source's algorithm: `sign = bit15 ? -1 : 1`, as binary64. -/
def sourceSign (w : Word) : Data :=
  if sfSign w = 1#1 then 0xBFF0000000000000#64 else 0x3FF0000000000000#64

/-- Step 3: `mantissaFraction = bits[10..0] / 2048.0`, as binary64. -/
def sourceFraction (w : Word) : Option Data := f64OfScaled 0#1 (sfMan w).toNat (-11)

/-- Step 4: `2^(exponent - 15)`, as binary64. -/
def sourcePower (w : Word) : Option Data := f64OfScaled 0#1 1 (((sfExp w).toNat : Int) - 15)

/-- Steps 3 and 4 of the source's algorithm evaluated in binary64 arithmetic, in the given order (R99). -/
def sourceFormula (o : MulOrder) (w : Word) : Option Data :=
  match sourceFraction w, sourcePower w with
  | some f, some p =>
    match o with
    | .asWritten => (f64Mul (sourceSign w) f).bind (fun x => f64Mul x p)
    | .signLast => (f64Mul f p).bind (fun x => f64Mul (sourceSign w) x)
    | .fractionLast => (f64Mul (sourceSign w) p).bind (fun x => f64Mul x f)
  | _, _ => none

/-- The source's whole algorithm: mask to 16 bits, the special case `0x8000`, else the formula. -/
def sourceDecode (o : MulOrder) (raw : Nat) : Option Data :=
  if sfMask raw = 0x8000#16 then some 0x8000000000000000#64 else sourceFormula o (sfMask raw)

end Sys2Proof.Machine
end

