-- ==== Sys2Proof/Safety.lean ====
section
/-! DEFINITION. What counts as a safe run, in the terms the statements use: the invariant of the state, the host's
side of the contract (70_reset_and_hazards.md R153, R154, R158, R159), and the response of the pure step function
(00_scope.md R10). -/

namespace Sys2Proof.Machine

/-- What every reachable state meets: the buffer is in canonical form and inside the address space (20_memory.md
R40), `LEN` is legal (10_state.md R24), and a response on the port is the last one returned (R27). -/
structure State.Inv (s : State) : Prop where
  canonical : s.buf.wf
  inside : ∀ c ∈ s.buf, c.1 < BUFSZ
  legalLen : s.len ≤ BUFSZ
  portLast : ∀ r, s.port = some r → s.responses.getLast? = some r

/-- "Every byte below `LEN` must have been written" (R154). -/
def State.PayloadWritten (s : State) : Prop :=
  ∀ i, i < s.len → (readByte s.buf i).isSome = true

/-- What the contract asks of a host action in a state: indices and lengths within the buffer (R159), and a length
set only over written bytes (R153, R154). Commands and `RESET` are never outside it. -/
def State.InContract (s : State) : HostAction → Prop
  | .reset => True
  | .writeByte i _ => i < BUFSZ
  | .setLen n => n ≤ BUFSZ ∧ ∀ i, i < n → (readByte s.buf i).isSome = true
  | .command _ => True
  | .abandoned _ => True

/-- The response to a command word as a function of `(BUF, LEN)` and the word alone: what a block just reset and
given this buffer and length answers (R10). Nothing where it gives no response. -/
def reply (buf : Memory) (len : Nat) (cw : CommandWord) : Option Response :=
  match step { State.reset with buf := buf, len := len, pending := [.command cw] } with
  | .next t => t.port
  | .fault _ => none
  | .refused _ => none

/-- What the host may keep of the responses of one payload: every value, or nothing after any fault (R158). -/
def hostRecord : List Response → Option (List Data)
  | [] => some []
  | r :: rs =>
    match r.usableData, hostRecord rs with
    | some d, some ds => some (d :: ds)
    | _, _ => none

end Sys2Proof.Machine
end

