-- ==== Sys2Proof/Certificates/Slice0/Obligations.lean ====
section
/-! DEFINITION. The statements for the provers, in the order encoding, step, word assembler, commands, codec, whole
machine, host. Each docstring names the rule or the section of the spec it formalises. -/

open Sys2Proof Sys2Proof.Machine

-- ---------------------------------------------------------------- encoding

/-- Words written out from the encodings of 30_encoding.md section 7 (Assembler syntax, its examples) and of
95_test_vectors.md section 2.8 decode to the commands they stand for, and reserved words to none. -/
def Obligations.WrittenWordsDecode : Prop :=
  decode 0x00000000#32 = .instr (.asm 0) ∧
  decode 0x01000001#32 = .instr (.asmx 1) ∧
  decode 0x02000002#32 = .instr (.asmd 2) ∧
  decode 0x03000003#32 = .instr (.asmq 3) ∧
  decode 0x05008000#32 = .instr (.sfx 0x8000) ∧
  decode 0x06004400#32 = .instr (.sfd 0x4400) ∧
  decode 0x0700FFFF#32 = .instr (.sfq 0xFFFF) ∧
  decode 0x06AB4400#32 = .instr (.sfd 0xAB4400) ∧
  decode 0x04004400#32 = .reserved .immWord ∧
  decode 0x08000000#32 = .reserved .rsvNonzero ∧
  decode 0xFFFFFFFF#32 = .reserved .rsvNonzero

/-- Decoding the word of a command gives the command back, for every operand below `2^24` (30_encoding.md sections 1
to 3 and 7): no bit of an encoding is dropped. -/
def Obligations.DecodeOfEncodeIsIdentity : Prop :=
  ∀ i : Instr, i.WellFormed → decode (encode i) = .instr i

/-- Encoding what a word decodes to gives the word back: a word that is not reserved has one meaning, and it fits its
operand field (30_encoding.md sections 2 to 4). -/
def Obligations.EncodeOfDecodeIsIdentity : Prop :=
  ∀ (cw : CommandWord) (i : Instr), decode cw = .instr i → i.WellFormed ∧ encode i = cw

/-- R76: every 32-bit value is either exactly one of the seven commands or reserved, by the opcode byte alone, and a
word that is none of the seven raises `IllegalCommand`. Carried by the model's fields: `pending`, log entry 4; `port`
and `responses`, log entries 5 and 6. -/
def Obligations.DecodeByOpcode : Prop :=
  ∀ cw : CommandWord,
    (cw.toNat / 2 ^ 24 = 0x00 → decode cw = .instr (.asm (cw.toNat % 2 ^ 24))) ∧
    (cw.toNat / 2 ^ 24 = 0x01 → decode cw = .instr (.asmx (cw.toNat % 2 ^ 24))) ∧
    (cw.toNat / 2 ^ 24 = 0x02 → decode cw = .instr (.asmd (cw.toNat % 2 ^ 24))) ∧
    (cw.toNat / 2 ^ 24 = 0x03 → decode cw = .instr (.asmq (cw.toNat % 2 ^ 24))) ∧
    (cw.toNat / 2 ^ 24 = 0x05 → decode cw = .instr (.sfx (cw.toNat % 2 ^ 24))) ∧
    (cw.toNat / 2 ^ 24 = 0x06 → decode cw = .instr (.sfd (cw.toNat % 2 ^ 24))) ∧
    (cw.toNat / 2 ^ 24 = 0x07 → decode cw = .instr (.sfq (cw.toNat % 2 ^ 24))) ∧
    (cw.toNat / 2 ^ 24 ∉ [0x00, 0x01, 0x02, 0x03, 0x05, 0x06, 0x07] →
      (∃ why, decode cw = .reserved why) ∧
      ∀ (s : State) (rest : List HostAction), s.pending = .command cw :: rest →
        step s = .next { s with
          pending := rest
          port := some (.fault .illegalCommand)
          responses := s.responses ++ [.fault .illegalCommand] })

/-- R65: a command word is reserved exactly when `CW[31:27] != 0` or `OPC = 0x04`; it raises `IllegalCommand` and has
no other effect; 249 of the 256 opcode bytes are reserved, whatever the operand bits; the all-zero word is `ASM 0`; no
word, reserved or not, is a no-operation: each that completes returns one response. Carried by the model's fields:
`pending`, log entry 4; `port` and `responses`, log entries 5 and 6. -/
def Obligations.ReservedWordsExactly : Prop :=
  (∀ cw : CommandWord,
    (∃ why, decode cw = .reserved why) ↔ (cw.toNat / 2 ^ 27 ≠ 0 ∨ cw.toNat / 2 ^ 24 = 0x04)) ∧
  (∀ (cw : CommandWord) (why : ReservedWord) (s : State) (rest : List HostAction),
    decode cw = .reserved why → s.pending = .command cw :: rest →
      step s = .next { s with
        pending := rest
        port := some (.fault .illegalCommand)
        responses := s.responses ++ [.fault .illegalCommand] }) ∧
  (∀ n : Nat, n < 2 ^ 24 →
    ((List.range 256).filter (fun opc => (decodeTableWord 32 (opc * 2 ^ 24 + n)).isNone)).length = 249) ∧
  decode 0x00000000#32 = .instr (.asm 0) ∧
  (∀ (s t : State) (cw : CommandWord) (rest : List HostAction),
    s.pending = .command cw :: rest → step s = .next t → ∃ r, t.responses = s.responses ++ [r])

/-- The opcode map of 30_encoding.md section 2: `mask = 0xFF000000` and `match = OPC << 24` select each command, with
the operand in the other 24 bits. -/
def Obligations.MaskAndMatchSelectCommand : Prop :=
  ∀ cw : CommandWord,
    (cw &&& 0xFF000000#32 = 0x00000000#32 ↔ decode cw = .instr (.asm (cw &&& 0x00FFFFFF#32).toNat)) ∧
    (cw &&& 0xFF000000#32 = 0x01000000#32 ↔ decode cw = .instr (.asmx (cw &&& 0x00FFFFFF#32).toNat)) ∧
    (cw &&& 0xFF000000#32 = 0x02000000#32 ↔ decode cw = .instr (.asmd (cw &&& 0x00FFFFFF#32).toNat)) ∧
    (cw &&& 0xFF000000#32 = 0x03000000#32 ↔ decode cw = .instr (.asmq (cw &&& 0x00FFFFFF#32).toNat)) ∧
    (cw &&& 0xFF000000#32 = 0x05000000#32 ↔ decode cw = .instr (.sfx (cw &&& 0x00FFFFFF#32).toNat)) ∧
    (cw &&& 0xFF000000#32 = 0x06000000#32 ↔ decode cw = .instr (.sfd (cw &&& 0x00FFFFFF#32).toNat)) ∧
    (cw &&& 0xFF000000#32 = 0x07000000#32 ↔ decode cw = .instr (.sfq (cw &&& 0x00FFFFFF#32).toNat))

/-- The sub-fields of the opcode byte (30_encoding.md section 1): in the word of a command the reserved bits 31:27 are
zero, bit 26 is the source (0 `BUF`, 1 `IMM`), and bits 25:24 are the output (0 `WORD`, 1 `FIELDS`, 2 `F64`, 3 `Q26`). -/
def Obligations.OpcodeSubFields : Prop :=
  ∀ i : Instr, i.WellFormed →
    (encode i).extractLsb' 27 5 = 0#5 ∧
    (encode i).extractLsb' 26 1 =
      (match i with
        | .asm _ | .asmx _ | .asmd _ | .asmq _ => 0#1
        | .sfx _ | .sfd _ | .sfq _ => 1#1) ∧
    (encode i).extractLsb' 24 2 =
      (match i with
        | .asm _ => 0#2
        | .asmx _ | .sfx _ => 1#2
        | .asmd _ | .sfd _ => 2#2
        | .asmq _ | .sfq _ => 3#2)

-- ---------------------------------------------------------------- the step

/-- A step runs the decoded command (20_memory.md sections 4 and 6): when the host presents a word that decodes to
`i`, the step is `exec i` once the word is off the host's list. That the host's actions stand in a list of the state
is the model's choice (log entry 4). -/
def Obligations.StepRunsDecodedCommand : Prop :=
  (∀ (s : State) (cw : CommandWord) (i : Instr) (rest : List HostAction),
    s.pending = .command cw :: rest → decode cw = .instr i → step s = exec i { s with pending := rest }) ∧
  (∀ (s : State) (nbits w : Nat) (i : Instr),
    decodeTableWord nbits w = some i → step (s.withFetchWord nbits w) = exec i s)

/-- With no action of the host left, no number of steps changes anything (00_scope.md section 6: nothing but the block
and the host acts on the state; that such a step answers the same state is the model's choice, log entry 8). Carried
by the model's fields: `pending`, log entry 4. -/
def Obligations.IdleRunKeepsState : Prop :=
  ∀ (s : State) (k : Nat), s.pending = [] → core.run k s = .next s

/-- R134: `IllegalCommand` is raised exactly for reserved words, whatever the operand bits, `BUF` and `LEN`; the
response has status 2; no state changes. Carried by the model's fields: `pending`, log entry 4; `port` and
`responses`, log entries 5 and 6. -/
def Obligations.IllegalCommandExactly : Prop :=
  (∀ (s : State) (cw : CommandWord) (rest : List HostAction),
    s.pending = .command cw :: rest → (cw.toNat / 2 ^ 27 ≠ 0 ∨ cw.toNat / 2 ^ 24 = 0x04) →
      step s = .next { s with
        pending := rest
        port := some (.fault .illegalCommand)
        responses := s.responses ++ [.fault .illegalCommand] }) ∧
  (∀ (s t : State) (cw : CommandWord) (rest : List HostAction),
    s.pending = .command cw :: rest → step s = .next t → t.port = some (.fault .illegalCommand) →
      cw.toNat / 2 ^ 27 ≠ 0 ∨ cw.toNat / 2 ^ 24 = 0x04) ∧
  (Response.fault .illegalCommand).status = 2#2

/-- R132: `OutOfRange` is raised by `ASM`, `ASMX`, `ASMD`, `ASMQ` when `off + 1 >= LEN`, and by nothing else: the
response has status 1, and no state changes. Carried by the model's fields: `port` and `responses`, log entries 5 and
6. -/
def Obligations.OutOfRangeExactly : Prop :=
  (∀ (s : State) (off : Nat) (i : Instr), i ∈ [.asm off, .asmx off, .asmd off, .asmq off] → s.len ≤ off + 1 →
    exec i s = .next { s with
      port := some (.fault .outOfRange)
      responses := s.responses ++ [.fault .outOfRange] }) ∧
  (∀ (s t : State) (i : Instr), exec i s = .next t → t.port = some (.fault .outOfRange) →
    ∃ off, i ∈ [.asm off, .asmx off, .asmd off, .asmq off] ∧ s.len ≤ off + 1) ∧
  (Response.fault .outOfRange).status = 1#2

/-- The priority of 60_exceptions.md section 3: one command has one response; for a reserved word it is
`IllegalCommand` whatever `LEN` is, and it is `OutOfRange` only for a word that decoded to one of the four buffer
commands. Carried by the model's fields: `pending`, log entry 4; `port` and `responses`, log entries 5 and 6. -/
def Obligations.FaultPriority : Prop :=
  ∀ (s t : State) (cw : CommandWord) (rest : List HostAction),
    s.pending = .command cw :: rest → step s = .next t →
      ∃ r, t.port = some r ∧ t.responses = s.responses ++ [r] ∧
        ((∃ why, decode cw = .reserved why) → r = .fault .illegalCommand) ∧
        (r = .fault .outOfRange →
          ∃ off, decode cw ∈ [.instr (.asm off), .instr (.asmx off), .instr (.asmd off), .instr (.asmq off)] ∧
            s.len ≤ off + 1)

-- ---------------------------------------------------------------- the word assembler

/-- R80: the range check comes first, on unbounded integers; in range, the word is `(hi << 8) | lo` with the byte at
the lower offset in the high half. -/
def Obligations.AssembleBigEndian : Prop :=
  ∀ (s : State) (off : Nat),
    (¬ off + 1 < s.len → assemble s off = .outOfRange) ∧
    (∀ hi lo : Byte, off + 1 < s.len → readByte s.buf off = some hi → readByte s.buf (off + 1) = some lo →
      ∃ w, assemble s off = .word w ∧ w.toNat = hi.toNat <<< 8 ||| lo.toNat ∧ w.toNat = 256 * hi.toNat + lo.toNat)

/-- The mixed-width view of 20_memory.md section 2: `BUF[off]` supplies bits 15 to 8 and `BUF[off+1]` bits 7 to 0, and
two words at `off` and `off + 1` share `BUF[off+1]`. -/
def Obligations.OverlappingWordsShareAByte : Prop :=
  ∀ (s : State) (off : Nat) (v w : Word),
    assemble s off = .word v → assemble s (off + 1) = .word w →
      readByte s.buf off = some (v.extractLsb' 8 8) ∧
      readByte s.buf (off + 1) = some (v.extractLsb' 0 8) ∧
      v.extractLsb' 0 8 = w.extractLsb' 8 8 ∧
      readByte s.buf (off + 2) = some (w.extractLsb' 0 8)

/-- The byte mux of 40_word_assembler.md section 1: reading the two bytes in sequence, first steered high and held in
the latch, then low, gives the word of `MemRead`, whatever the latch held before. -/
def Obligations.ByteMuxGivesTheWord : Prop :=
  ∀ (latch : Byte) (m : Memory) (off : Nat), serialWord latch m off = readWord m off

-- ---------------------------------------------------------------- the commands

/-- `ASM off` (40_word_assembler.md section 2): in range, with both bytes written, it completes with the unsigned word
`256 * BUF[off] + BUF[off+1]` and changes nothing but the response. Carried by the model's fields: `port` and
`responses`, log entries 5 and 6. -/
def Obligations.AsmCompletes : Prop :=
  ∀ (s : State) (off : Nat) (hi lo : Byte),
    off + 1 < s.len → readByte s.buf off = some hi → readByte s.buf (off + 1) = some lo →
      ∃ d : Data, exec (.asm off) s = .next { s with
          port := some (.ok d)
          responses := s.responses ++ [.ok d] } ∧
        d.toNat = 256 * hi.toNat + lo.toNat

/-- `ASMX off` (42_assemble_decode.md, the rule of `ASMX`): in range, with both bytes written, it completes with the
fields of the word, sign at bit 24, biased exponent at 19:16, mantissa at 10:0, taken from the two bytes. Carried by
the model's fields: `port` and `responses`, log entries 5 and 6. -/
def Obligations.AsmxCompletes : Prop :=
  ∀ (s : State) (off : Nat) (hi lo : Byte),
    off + 1 < s.len → readByte s.buf off = some hi → readByte s.buf (off + 1) = some lo →
      ∃ d : Data, exec (.asmx off) s = .next { s with
          port := some (.ok d)
          responses := s.responses ++ [.ok d] } ∧
        d.toNat = hi.toNat / 128 * 2 ^ 24 + hi.toNat / 8 % 16 * 2 ^ 16 + (hi.toNat % 8 * 256 + lo.toNat)

/-- `ASMD off` (42_assemble_decode.md, the rule of `ASMD`): in range, with both bytes written, it completes with the
binary64 pattern whose value is exactly that of the word and whose sign bit is the word's. Carried by the model's
fields: `port` and `responses`, log entries 5 and 6. -/
def Obligations.AsmdCompletes : Prop :=
  ∀ (s : State) (off : Nat) (hi lo : Byte),
    off + 1 < s.len → readByte s.buf off = some hi → readByte s.buf (off + 1) = some lo →
      ∃ d : Data, exec (.asmd off) s = .next { s with
          port := some (.ok d)
          responses := s.responses ++ [.ok d] } ∧
        f64Value d = some ((-1) ^ (hi.toNat / 128) * (((hi.toNat % 8 * 256 + lo.toNat : Nat) : ℚ) / 2048) *
          2 ^ (((hi.toNat / 8 % 16 : Nat) : ℤ) - 15)) ∧
        (f64Sign d).toNat = hi.toNat / 128

/-- `ASMQ off` (42_assemble_decode.md, the rule of `ASMQ`): in range, with both bytes written, it completes with the
two's complement pattern of `(-1)^s * m * 2^e`. Carried by the model's fields: `port` and `responses`, log entries 5
and 6. -/
def Obligations.AsmqCompletes : Prop :=
  ∀ (s : State) (off : Nat) (hi lo : Byte),
    off + 1 < s.len → readByte s.buf off = some hi → readByte s.buf (off + 1) = some lo →
      ∃ d : Data, exec (.asmq off) s = .next { s with
          port := some (.ok d)
          responses := s.responses ++ [.ok d] } ∧
        d.toInt = (-1) ^ (hi.toNat / 128) * ((hi.toNat % 8 * 256 + lo.toNat : Nat) : ℤ) * 2 ^ (hi.toNat / 8 % 16)

/-- `SFX raw` (41_semifloat_codec.md section 8, the rule of `SFX`): for every operand and in every state it completes
with the fields of the low 16 bits of `raw`; bits 16 and above are ignored. Carried by the model's fields: `port` and
`responses`, log entries 5 and 6. -/
def Obligations.SfxCompletes : Prop :=
  ∀ (s : State) (raw : Nat),
    ∃ d : Data, exec (.sfx raw) s = .next { s with
        port := some (.ok d)
        responses := s.responses ++ [.ok d] } ∧
      d.toNat = raw / 2 ^ 15 % 2 * 2 ^ 24 + raw / 2 ^ 11 % 16 * 2 ^ 16 + raw % 2 ^ 11

/-- `SFD raw` (41_semifloat_codec.md section 8, the rule of `SFD`): for every operand and in every state it completes
with the binary64 pattern whose value is exactly that of the low 16 bits of `raw` and whose sign bit is bit 15.
Carried by the model's fields: `port` and `responses`, log entries 5 and 6. -/
def Obligations.SfdCompletes : Prop :=
  ∀ (s : State) (raw : Nat),
    ∃ d : Data, exec (.sfd raw) s = .next { s with
        port := some (.ok d)
        responses := s.responses ++ [.ok d] } ∧
      f64Value d = some ((-1) ^ (raw / 2 ^ 15 % 2) * (((raw % 2 ^ 11 : Nat) : ℚ) / 2048) *
        2 ^ (((raw / 2 ^ 11 % 16 : Nat) : ℤ) - 15)) ∧
      (f64Sign d).toNat = raw / 2 ^ 15 % 2

/-- `SFQ raw` (41_semifloat_codec.md section 8, the rule of `SFQ`): for every operand and in every state it completes
with the two's complement pattern of `(-1)^s * m * 2^e` for the low 16 bits of `raw`. Carried by the model's fields:
`port` and `responses`, log entries 5 and 6. -/
def Obligations.SfqCompletes : Prop :=
  ∀ (s : State) (raw : Nat),
    ∃ d : Data, exec (.sfq raw) s = .next { s with
        port := some (.ok d)
        responses := s.responses ++ [.ok d] } ∧
      d.toInt = (-1) ^ (raw / 2 ^ 15 % 2) * ((raw % 2 ^ 11 : Nat) : ℤ) * 2 ^ (raw / 2 ^ 11 % 16)

/-- R123: each of the three assemble-and-convert commands is the immediate command applied to the assembled word, and
the assembler's fault, its only one, when the range check fails. Carried by the model's fields: `port` and
`responses`, log entries 5 and 6. -/
def Obligations.CompositionLaw : Prop :=
  ∀ (s : State) (off : Nat),
    (∀ hi lo : Byte, off + 1 < s.len → readByte s.buf off = some hi → readByte s.buf (off + 1) = some lo →
      exec (.asmx off) s = exec (.sfx (256 * hi.toNat + lo.toNat)) s ∧
      exec (.asmd off) s = exec (.sfd (256 * hi.toNat + lo.toNat)) s ∧
      exec (.asmq off) s = exec (.sfq (256 * hi.toNat + lo.toNat)) s ∧
      (sfMask (256 * hi.toNat + lo.toNat)).toNat = 256 * hi.toNat + lo.toNat) ∧
    (¬ off + 1 < s.len → ∀ i : Instr, i ∈ [.asmx off, .asmd off, .asmq off] →
      exec i s = .next { s with
        port := some (.fault .outOfRange)
        responses := s.responses ++ [.fault .outOfRange] }) ∧
    (∀ (t : State) (c : FaultCode) (i : Instr), i ∈ [.asmx off, .asmd off, .asmq off] → exec i s = .next t →
      t.port = some (.fault c) → c = .outOfRange)

/-- The model's fault on a byte nothing has written (70_reset_and_hazards.md section 2: "a model treats a read of such
a byte as a fault of the model"): it happens exactly when one of the four buffer commands is in range and needs such a
byte (log entry 2 says what the model takes such a byte to be). -/
def Obligations.UnwrittenByteFaultExactly : Prop :=
  ∀ (s : State) (i : Instr),
    exec i s = .fault .unwrittenByte ↔
      ∃ off, i ∈ [.asm off, .asmx off, .asmd off, .asmq off] ∧ off + 1 < s.len ∧
        (readByte s.buf off = none ∨ readByte s.buf (off + 1) = none)

/-- The frame of every command (10_state.md section 2: no command writes `BUF` or `LEN`): a next state differs from
the state before in the response port and in one response more, and every byte reads as before. Carried by the model's
fields: `pending`, log entry 4; `port` and `responses`, log entries 5 and 6. -/
def Obligations.CommandFrame : Prop :=
  ∀ (s t : State) (i : Instr), exec i s = .next t →
    ∃ r, t.port = some r ∧ t.responses = s.responses ++ [r] ∧ r ≠ .fault .illegalCommand ∧
      t.len = s.len ∧ t.pending = s.pending ∧ t.buf = s.buf ∧
      ∀ a, readByte t.buf a = readByte s.buf a

-- ---------------------------------------------------------------- the codec

/-- R90: the mask keeps the low 16 bits and is blind to bits 16 and above. -/
def Obligations.MaskKeepsLowWord : Prop :=
  ∀ raw k : Nat,
    (sfMask raw).toNat = raw &&& 0xFFFF ∧ (sfMask raw).toNat ≤ 65535 ∧ sfMask (raw + k * 65536) = sfMask raw

/-- R91: the three fields of a word, as logical shifts and masks; they partition the word; the sign factor, the range
of the unbiased exponent, and the range of the mantissa fraction. -/
def Obligations.FieldsPartitionWord : Prop :=
  ∀ w : Word,
    (sfSign w).toNat = (w.toNat >>> 15) &&& 0x1 ∧
    (sfExp w).toNat = (w.toNat >>> 11) &&& 0xF ∧
    (sfMan w).toNat = w.toNat &&& 0x7FF ∧
    w.toNat = (sfSign w).toNat <<< 15 ||| (sfExp w).toNat <<< 11 ||| (sfMan w).toNat ∧
    ((-1 : ℚ) ^ (sfSign w).toNat = if sfSign w = 1#1 then -1 else 1) ∧
    -15 ≤ ((sfExp w).toNat : ℤ) - 15 ∧ ((sfExp w).toNat : ℤ) - 15 ≤ 0 ∧
    0 ≤ ((sfMan w).toNat : ℚ) / 2048 ∧ ((sfMan w).toNat : ℚ) / 2048 ≤ 2047 / 2048

/-- The value of a pattern in both its forms; it is zero exactly when the mantissa is, which are the 32 patterns
`e << 11` and `0x8000 | (e << 11)` (41_semifloat_codec.md section 3, R93, which marks its second form as "derived: from
the source formula"). -/
def Obligations.ValueOfPattern : Prop :=
  ∀ w : Word,
    sfValue w = (-1) ^ (w.toNat / 2 ^ 15) * (((w.toNat % 2 ^ 11 : Nat) : ℚ) / 2048) *
      2 ^ (((w.toNat / 2 ^ 11 % 16 : Nat) : ℤ) - 15) ∧
    sfValue w = (-1) ^ (w.toNat / 2 ^ 15) * ((w.toNat % 2 ^ 11 : Nat) : ℚ) *
      2 ^ (((w.toNat / 2 ^ 11 % 16 : Nat) : ℤ) - 26) ∧
    (sfValue w = 0 ↔ w.toNat % 2 ^ 11 = 0) ∧
    (sfValue w = 0 ↔ ∃ e, e < 16 ∧ (w.toNat = e <<< 11 ∨ w.toNat = 0x8000 ||| e <<< 11))

/-- The range of the values (41_semifloat_codec.md section 3, derived there): at most 2047/2048 in magnitude, reached
by `0x7FFF` and `0xFFFF` only; no non-zero value below `2^-26` in magnitude, reached by `0x0001` and `0x8001` only;
and flipping bit 15 negates. -/
def Obligations.ValueRange : Prop :=
  ∀ w : Word,
    |sfValue w| ≤ 2047 / 2048 ∧
    (|sfValue w| = 2047 / 2048 ↔ w = 0x7FFF#16 ∨ w = 0xFFFF#16) ∧
    (sfValue w ≠ 0 → 1 / 2 ^ 26 ≤ |sfValue w|) ∧
    (|sfValue w| = 1 / 2 ^ 26 ↔ w = 0x0001#16 ∨ w = 0x8001#16) ∧
    sfValue (w ^^^ 0x8000#16) = -sfValue w

/-- Many patterns share a value (41_semifloat_codec.md section 3, derived there): for `e >= 1` and `m <= 1023`, `(e,
m)` and `(e - 1, 2m)` have the same value, whatever the sign. -/
def Obligations.PatternsShareValues : Prop :=
  ∀ s e m : Nat, s < 2 → e < 15 → m ≤ 1023 →
    sfValue (BitVec.ofNat 16 (s * 2 ^ 15 + (e + 1) * 2 ^ 11 + m)) =
      sfValue (BitVec.ofNat 16 (s * 2 ^ 15 + e * 2 ^ 11 + 2 * m))

/-- The binary64 pattern of a word in closed form; its value is exactly the value of the word; `0x8000` gives
`0x8000000000000000` (41_semifloat_codec.md section 4, which marks the closed form of R96 as "derived: from rule R92,
rule R93 and `30_encoding.md` rule R72"). -/
def Obligations.F64PatternIsExact : Prop :=
  (∀ w : Word,
    (w.toNat % 2 ^ 11 = 0 → (sfToF64 w).toNat = w.toNat / 2 ^ 15 * 2 ^ 63) ∧
    (∀ p : Nat, 2 ^ p ≤ w.toNat % 2 ^ 11 → w.toNat % 2 ^ 11 < 2 ^ (p + 1) →
      p ≤ 10 ∧ 997 ≤ p + w.toNat / 2 ^ 11 % 16 + 997 ∧ p + w.toNat / 2 ^ 11 % 16 + 997 ≤ 1022 ∧
      (sfToF64 w).toNat = w.toNat / 2 ^ 15 * 2 ^ 63 + (p + w.toNat / 2 ^ 11 % 16 + 997) * 2 ^ 52 +
        (w.toNat % 2 ^ 11 - 2 ^ p) * 2 ^ (52 - p)) ∧
    f64Value (sfToF64 w) = some (sfValue w)) ∧
  sfToF64 0x8000#16 = 0x8000000000000000#64

/-- A binary64 result is a zero or a normal number (41_semifloat_codec.md section 4, derived there): its exponent
takes only the values 997 to 1022 when it is not a zero, and bits 41:0 are always zero. -/
def Obligations.F64NeverSubnormalOrNaN : Prop :=
  ∀ w : Word,
    (((f64Exp (sfToF64 w)).toNat = 0 ∧ (f64Frac (sfToF64 w)).toNat = 0) ∨
      (997 ≤ (f64Exp (sfToF64 w)).toNat ∧ (f64Exp (sfToF64 w)).toNat ≤ 1022)) ∧
    (sfToF64 w).extractLsb' 0 42 = 0#42

/-- R98: the sign bit of the binary64 result of a zero-mantissa pattern is the pattern's bit 15: the 16 patterns `e <<
11` give `+0` and the 16 patterns `0x8000 | (e << 11)` give `-0`; no other pattern gives a zero. -/
def Obligations.ZeroKeepsItsSign : Prop :=
  (∀ e : Nat, e < 16 →
    sfToF64 (BitVec.ofNat 16 (e <<< 11)) = 0x0000000000000000#64 ∧
    sfToF64 (BitVec.ofNat 16 (0x8000 ||| e <<< 11)) = 0x8000000000000000#64) ∧
  (∀ w : Word, (f64Sign (sfToF64 w)).toNat = w.toNat / 2 ^ 15) ∧
  (∀ w : Word, (sfToF64 w).toNat % 2 ^ 63 = 0 ↔ w.toNat % 2 ^ 11 = 0)

/-- The source's algorithm (41_semifloat_codec.md section 1), evaluated in binary64 arithmetic, gives bit for bit the
closed form of `sf_to_f64`, in any order of its two multiplications, with the special case and without it; no product
is rounded (41_semifloat_codec.md section 4, which marks the arithmetic used as general knowledge; log entry 11). -/
def Obligations.SourceAlgorithmAgrees : Prop :=
  (∀ (o : MulOrder) (w : Word), sourceFormula o w = some (sfToF64 w)) ∧
  (∀ (o : MulOrder) (raw : Nat), sourceDecode o raw = some (sfToF64 (sfMask raw)))

/-- R100: the field word, packed as `{s, 4'b0, e, 5'b0, m}`, in closed form, and the word recovered from it. -/
def Obligations.FieldWordLayout : Prop :=
  (∀ w : Word,
    sfFields w = (sfSign w ++ 0#4 ++ sfExp w ++ 0#5 ++ sfMan w).setWidth 64 ∧
    (sfFields w).toNat = (sfSign w).toNat <<< 24 ||| (sfExp w).toNat <<< 16 ||| (sfMan w).toNat ∧
    w.toNat = ((sfFields w).extractLsb' 24 1).toNat <<< 15 ||| ((sfFields w).extractLsb' 16 4).toNat <<< 11 |||
      ((sfFields w).extractLsb' 0 11).toNat) ∧
  (∀ v w : Word, sfFields v = sfFields w → v = w)

/-- R101: the fixed-point integer; it is the unique integer `q` with `q / 2^26` the value of the pattern; its response
data is `tc_64(q)`; and 26 fraction bits is the coarsest scale at which every pattern is an integer. -/
def Obligations.Q26IsExact : Prop :=
  (∀ w : Word,
    sfToQ26 w = (if w.toNat / 2 ^ 15 = 1 then -1 else 1) * ((w.toNat % 2 ^ 11 * 2 ^ (w.toNat / 2 ^ 11 % 16) : Nat) : ℤ) ∧
    -67076096 ≤ sfToQ26 w ∧ sfToQ26 w ≤ 67076096 ∧
    (sfToQ26 w : ℚ) / 2 ^ 26 = sfValue w ∧
    ((q26Data w).toNat : ℤ) = sfToQ26 w % 2 ^ 64 ∧
    ∀ q : ℤ, (q : ℚ) / 2 ^ 26 = sfValue w → q = sfToQ26 w) ∧
  (∀ k : Nat, k < 26 → ∃ w : Word, ∀ q : ℤ, (q : ℚ) / 2 ^ k ≠ sfValue w)

/-- R71: the `Q26` result is the 64-bit two's complement of `q`, bits 63:27 are copies of bit 26, the low `N` bits for
any `N >= 27` read as `N`-bit two's complement give `q`, and there is no negative zero. -/
def Obligations.Q26Format : Prop :=
  ∀ w : Word,
    (q26Data w).toInt = sfToQ26 w ∧ -(2 ^ 26) < sfToQ26 w ∧ sfToQ26 w < 2 ^ 26 ∧
    ((q26Data w).toInt : ℚ) / 2 ^ 26 = sfValue w ∧
    (∀ k : Nat, 27 ≤ k → k < 64 → (q26Data w).getLsbD k = (q26Data w).getLsbD 26) ∧
    (∀ n : Nat, 27 ≤ n → n ≤ 64 → ((q26Data w).setWidth n).toInt = sfToQ26 w) ∧
    (w.toNat % 2 ^ 11 = 0 → q26Data w = 0#64)

/-- Properties of `Q26` (41_semifloat_codec.md section 5, derived there): zero exactly for a zero mantissa, negated by
flipping bit 15, the low `e` bits of its magnitude zero, and the binary64 result is its value. -/
def Obligations.Q26Properties : Prop :=
  ∀ w : Word,
    (sfToQ26 w = 0 ↔ w.toNat % 2 ^ 11 = 0) ∧
    sfToQ26 (w ^^^ 0x8000#16) = -sfToQ26 w ∧
    (sfToQ26 w).natAbs % 2 ^ (w.toNat / 2 ^ 11 % 16) = 0 ∧
    f64Value (sfToF64 w) = some ((sfToQ26 w : ℚ) / 2 ^ 26)

-- ---------------------------------------------------------------- the whole machine

/-- The step function of 00_scope.md section 6: what a command answers depends on `BUF`, `LEN` and the word alone, and
neither `BUF` nor `LEN` is written. Carried by the model's fields: `pending`, log entry 4; `port` and `responses`, log
entries 5 and 6. -/
def Obligations.ResponseDependsOnBufAndLenOnly : Prop :=
  ∀ (s t : State) (cw : CommandWord) (rest rest' : List HostAction),
    s.pending = .command cw :: rest → t.pending = .command cw :: rest' → s.buf = t.buf → s.len = t.len →
      (∀ f, step s = .fault f → step t = .fault f) ∧
      ∀ s', step s = .next s' → ∃ t' r, step t = .next t' ∧
        s'.port = some r ∧ t'.port = some r ∧
        s'.responses = s.responses ++ [r] ∧ t'.responses = t.responses ++ [r] ∧
        s'.buf = s.buf ∧ s'.len = s.len ∧ t'.buf = t.buf ∧ t'.len = t.len

/-- R46: reads have no side effect, and the same command issued twice with no host write between gives the same
response twice. Carried by the model's fields: `pending`, log entry 4; `port` and `responses`, log entries 5 and 6. -/
def Obligations.RepeatedCommandRepeatsResponse : Prop :=
  ∀ (s t : State) (cw : CommandWord) (rest : List HostAction),
    s.pending = .command cw :: .command cw :: rest → step s = .next t →
      ∃ r u, t.buf = s.buf ∧ t.len = s.len ∧ t.port = some r ∧ step t = .next u ∧
        u.buf = s.buf ∧ u.len = s.len ∧ u.port = some r ∧ u.pending = rest ∧
        u.responses = s.responses ++ [r, r]

/-- A fault leaves no trace (60_exceptions.md section 4): after a command that responded with a fault, the next
command is executed exactly as if the faulting command had never been issued. Carried by the model's fields:
`pending`, log entry 4; `port`, log entry 5. -/
def Obligations.FaultLeavesNoTrace : Prop :=
  ∀ (s t : State) (bad cw : CommandWord) (rest : List HostAction) (c : FaultCode),
    s.pending = .command bad :: .command cw :: rest → step s = .next t → t.port = some (.fault c) →
      (∀ f, step { s with pending := .command cw :: rest } = .fault f → step t = .fault f) ∧
      ∀ u, step { s with pending := .command cw :: rest } = .next u →
        ∃ u', step t = .next u' ∧ u'.port = u.port ∧ u'.buf = u.buf ∧ u'.len = u.len ∧ u'.pending = u.pending

/-- Only indices below `LEN` are readable (20_memory.md section 1): two buffers that agree below `LEN` give the same
response to every command word. -/
def Obligations.BytesBeyondLenAreUnreadable : Prop :=
  ∀ (m m' : Memory) (len : Nat) (cw : CommandWord),
    (∀ i, i < len → readByte m i = readByte m' i) → reply m len cw = reply m' len cw

/-- R152: only `RESET` (also one that overtakes a command, log entry 7) and `HostSetLen` change `LEN`, only
`HostWriteByte` gives a byte of `BUF` a value, and a fault resets nothing. Carried by the model's fields: `pending`,
log entry 4; `port`, log entry 5. -/
def Obligations.OnlyHostActionsChangeState : Prop :=
  ∀ (s t : State), step s = .next t →
    (t.len ≠ s.len → ∃ a rest, s.pending = a :: rest ∧
      (a = .reset ∨ (∃ cw, a = .abandoned cw) ∨ ∃ n, a = .setLen n ∧ t.len = n)) ∧
    (∀ (i : Nat) (b : Byte), readByte t.buf i = some b → readByte s.buf i ≠ some b →
      ∃ rest, s.pending = .writeByte i b :: rest) ∧
    (∀ (cw : CommandWord) (rest : List HostAction) (c : FaultCode),
      s.pending = .command cw :: rest → t.port = some (.fault c) → t.buf = s.buf ∧ t.len = s.len)

/-- Every step keeps the invariant of the state: the buffer in canonical form and inside the address space, `LEN`
legal (10_state.md section 2, 20_memory.md section 1), and a response on the port the last one returned. This last part
is the model's choice: R27 leaves open what the port shows, and log entry 5 (`port`) and log entry 6 (`responses`) say
what the model's fields hold. -/
def Obligations.StepKeepsInvariant : Prop :=
  ∀ (s t : State), s.Inv → step s = .next t → t.Inv

/-- The state after reset meets the invariant, and its payload, the empty one, is written. The invariant's part about
`port` and `responses` is the model's choice, log entries 5 and 6. -/
def Obligations.ResetMeetsInvariant : Prop :=
  State.reset.Inv ∧ State.reset.PayloadWritten

/-- No in-contract step stops (70_reset_and_hazards.md sections 2 and 3): when the invariant holds, every byte below
`LEN` is written and the host's next action is within the contract, a step answers a next state in which both hold
again. Carried by the model's fields: `pending`, log entry 4; the invariant's part about `port` and `responses` is the
model's choice, log entries 5 and 6. -/
def Obligations.InContractStepCompletes : Prop :=
  ∀ s : State, s.Inv → s.PayloadWritten → (∀ a rest, s.pending = a :: rest → s.InContract a) →
    ∃ t, step s = .next t ∧ t.Inv ∧ t.PayloadWritten

/-- Responses come in the order of the commands (20_memory.md section 6): when the payload is written, a run of
commands returns one response each, in order, each the response of the pure step function to its word, and leaves the
buffer and the length as they were. The port then holds the last of these responses, or what it held before where there
is no command; the spec gives a response no lifetime (10_state.md section 2), so how long the port holds it is the
model's choice (log entry 5). Carried by the model's fields: `pending`, log entry 4; `responses`, log entry 6. -/
def Obligations.ResponsesComeInOrder : Prop :=
  ∀ (s : State) (cws : List CommandWord) (rest : List HostAction),
    s.PayloadWritten → s.pending = cws.map HostAction.command ++ rest →
      ∃ (t : State) (rs : List Response), core.run cws.length s = .next t ∧
        rs.map some = cws.map (reply s.buf s.len) ∧
        t.responses = s.responses ++ rs ∧ t.port = rs.getLast?.or s.port ∧
        t.buf = s.buf ∧ t.len = s.len ∧ t.pending = rest

-- ---------------------------------------------------------------- the host

/-- The status codes of R131: 0 for success, 1 `OutOfRange`, 2 `IllegalCommand`, and 3 never. -/
def Obligations.StatusCodes : Prop :=
  (∀ d : Data, (Response.ok d).status = 0#2) ∧
  (Response.fault .outOfRange).status = 1#2 ∧
  (Response.fault .illegalCommand).status = 2#2 ∧
  ∀ r : Response, r.status ≠ 3#2

/-- The values the spec gives for reset (10_state.md section 3): `LEN` 0, no byte of `BUF` with a value, no response
pending. The host's two lists, which are the model's own, are empty (log entries 4 and 6). -/
def Obligations.ResetState : Prop :=
  State.reset.len = 0 ∧ (∀ i, readByte State.reset.buf i = none) ∧ State.reset.port = none ∧
  State.reset.pending = [] ∧ State.reset.responses = []

/-- After `RESET` (70_reset_and_hazards.md section 1), also one that overtakes an outstanding command (log entry 7):
`LEN` is 0, no byte has a value, no response is pending and none was returned; then every buffer command responds
`OutOfRange`, every immediate command works at once. Carried by the model's fields: `pending`, log entry 4; `port` and
`responses`, log entries 5 and 6. -/
def Obligations.AfterReset : Prop :=
  ∀ (s : State) (a : HostAction) (rest : List HostAction),
    s.pending = a :: rest → (a = .reset ∨ ∃ cw, a = .abandoned cw) →
      ∃ t, step s = .next t ∧ t.len = 0 ∧ (∀ i, readByte t.buf i = none) ∧ t.port = none ∧ t.pending = rest ∧
        t.responses = s.responses ∧
        (∀ (off : Nat) (i : Instr), i ∈ [.asm off, .asmx off, .asmd off, .asmq off] →
          exec i t = .next { t with
            port := some (.fault .outOfRange)
            responses := t.responses ++ [.fault .outOfRange] }) ∧
        (∀ (raw : Nat) (i : Instr), i ∈ [.sfx raw, .sfd raw, .sfq raw] →
          ∃ d, exec i t = .next { t with
            port := some (.ok d)
            responses := t.responses ++ [.ok d] })

/-- `HostWriteByte(i, b)` within the contract (00_scope.md section 7): index `i` then reads as `b`, every other index
as before, and `LEN` and the responses returned do not change. What the port shows then the spec leaves open (10_state.md section
2); that the model's port is empty is the model's choice (log entry 5). Carried by the model's fields: `pending`, log
entry 4; `responses`, log entry 6. -/
def Obligations.HostWriteByteEffect : Prop :=
  ∀ (s : State) (i : Nat) (b : Byte) (rest : List HostAction),
    s.pending = .writeByte i b :: rest → i < BUFSZ →
      ∃ t, step s = .next t ∧ readByte t.buf i = some b ∧
        (∀ a, a ≠ i → readByte t.buf a = readByte s.buf a) ∧
        t.len = s.len ∧ t.port = none ∧ t.pending = rest ∧ t.responses = s.responses

/-- `HostSetLen(n)` within the contract (00_scope.md section 7, 70_reset_and_hazards.md section 2): `LEN` is `n` and
every byte keeps the value last written. What the port shows then is not fixed (log entry 5). Carried by the model's
fields: `pending`, log entry 4; `responses`, log entry 6. -/
def Obligations.HostSetLenEffect : Prop :=
  ∀ (s : State) (n : Nat) (rest : List HostAction),
    s.pending = .setLen n :: rest → n ≤ BUFSZ →
      ∃ t, step s = .next t ∧ t.len = n ∧ (∀ a, readByte t.buf a = readByte s.buf a) ∧
        t.pending = rest ∧ t.responses = s.responses

/-- R159: `HostSetLen(n)` with `n > BUFSZ` and `HostWriteByte(i, b)` with `i >= BUFSZ` are refused, and nothing else
is; a byte is at most 255 always; and a payload longer than `BUFSZ` cannot be loaded. Carried by the model's fields:
`pending`, log entry 4. -/
def Obligations.OutsideContractRefused : Prop :=
  (∀ (s : State) (r : Refusal), step s = .refused r ↔
    ∃ rest, (r = .writeBeyondBuffer ∧ ∃ i b, s.pending = .writeByte i b :: rest ∧ BUFSZ ≤ i) ∨
      (r = .lenBeyondBuffer ∧ ∃ n, s.pending = .setLen n :: rest ∧ BUFSZ < n)) ∧
  (∀ b : Byte, b.toNat ≤ 255) ∧
  (∀ (s : State) (bs : List Byte) (rest : List HostAction),
    s.pending = loadActions bs ++ rest → BUFSZ < bs.length →
      core.run (bs.length + 1) s = .refused .writeBeyondBuffer)

/-- Loading a payload (70_reset_and_hazards.md section 2): the writes of `b0 .. b(n-1)` and then `HostSetLen(n)` leave
`LEN = n`, every payload byte at its index, and every other byte as it was. Carried by the model's fields: `pending`,
log entry 4; `responses`, log entry 6. -/
def Obligations.LoadPutsPayload : Prop :=
  ∀ (s : State) (bs : List Byte) (rest : List HostAction),
    s.pending = loadActions bs ++ rest → bs.length ≤ BUFSZ →
      ∃ t, core.run (bs.length + 1) s = .next t ∧ t.len = bs.length ∧
        (∀ i, i < bs.length → readByte t.buf i = bs[i]?) ∧
        (∀ i, bs.length ≤ i → readByte t.buf i = readByte s.buf i) ∧
        t.pending = rest ∧ t.responses = s.responses

/-- The bytes of a payload may be written in any order (70_reset_and_hazards.md section 2): two writes to different
indices give equal states, or are both refused, whichever comes first. Carried by the model's fields: `pending`, log
entry 4. -/
def Obligations.WritesInAnyOrder : Prop :=
  ∀ (s : State) (i j : Nat) (b c : Byte) (rest : List HostAction), s.Inv → i ≠ j →
    core.run 2 { s with pending := .writeByte i b :: .writeByte j c :: rest } =
      core.run 2 { s with pending := .writeByte j c :: .writeByte i b :: rest }

/-- What the host may keep (70_reset_and_hazards.md section 3): nothing once any response of the payload has a status
that is not 0, and otherwise the data of every response, in order. -/
def Obligations.HostKeepsNothingAfterFault : Prop :=
  ∀ rs : List Response,
    ((∃ r ∈ rs, r.status ≠ 0#2) → hostRecord rs = none) ∧
    ((∀ r ∈ rs, r.status = 0#2) → ∃ ds, hostRecord rs = some ds ∧ rs = ds.map Response.ok)
end

