-- ==== Sys2Proof/Laws/Codec.lean ====
section
/-! SUPPORT. The fields of a word and of a command word as numbers, and bits or-ed above smaller numbers as sums. -/

namespace Sys2Proof.Machine

/-- Or-ing a number below `2^k` into one shifted left by `k` adds it. -/
theorem shiftLeft_or_eq_add {a b k : Nat} (h : b < 2 ^ k) : a <<< k ||| b = a * 2 ^ k + b := by
  rw [← Nat.shiftLeft_add_eq_or_of_lt h, Nat.shiftLeft_eq]

@[simp] theorem sfMask_toNat (raw : Nat) : (sfMask raw).toNat = raw % 2 ^ 16 := by
  have h : raw &&& 0xFFFF = raw % 2 ^ 16 := Nat.and_two_pow_sub_one_eq_mod raw 16
  simp [sfMask, h]

theorem sfMask_word (w : Word) : sfMask w.toNat = w := by
  apply BitVec.eq_of_toNat_eq
  rw [sfMask_toNat, Nat.mod_eq_of_lt w.isLt]

theorem sfSign_toNat (w : Word) : (sfSign w).toNat = w.toNat / 2 ^ 15 := by
  have := w.isLt
  simp only [sfSign, BitVec.extractLsb'_toNat, Nat.shiftRight_eq_div_pow]
  omega

theorem sfExp_toNat (w : Word) : (sfExp w).toNat = w.toNat / 2 ^ 11 % 16 := by
  simp only [sfExp, BitVec.extractLsb'_toNat, Nat.shiftRight_eq_div_pow]

theorem sfMan_toNat (w : Word) : (sfMan w).toNat = w.toNat % 2 ^ 11 := by
  simp only [sfMan, BitVec.extractLsb'_toNat, Nat.shiftRight_zero]

/-- The position of the most significant 1 bit, as the spec defines it. -/
theorem msb_spec {m : Nat} (h : m ≠ 0) : 2 ^ msb m ≤ m ∧ m < 2 ^ (msb m + 1) :=
  ⟨Nat.log2_self_le h, Nat.lt_log2_self⟩

end Sys2Proof.Machine
end

