-- ==== Sys2Proof/Laws/Memory.lean ====
section
/-! SUPPORT. The laws of the payload buffer: a read after a write, the canonical form kept by every operation, and
equal reads of canonical memories meaning equal memories. -/

namespace Sys2Proof.Machine

@[simp] theorem readByte_nil (i : Nat) : readByte [] i = none := rfl

theorem readByte_cons (c : Host.Cell) (m : Memory) (i : Nat) :
    readByte (c :: m) i = if c.1 = i then some c.2 else readByte m i := rfl

/-- A read after a write to the same index gives the byte written, in every memory. -/
@[simp] theorem readByte_writeByte_same (m : Memory) (i : Nat) (b : Byte) :
    readByte (writeByte m i b) i = some b := by
  induction m with
  | nil => simp [writeByte, readByte]
  | cons c m ih =>
    obtain ⟨a, x⟩ := c
    simp only [writeByte]
    split_ifs with h1 h2
    · simp [readByte]
    · simp [readByte]
    · simp [readByte, Ne.symm h2, ih]

/-- A write leaves every other index alone, in every memory. -/
theorem readByte_writeByte_other (m : Memory) {i a : Nat} (b : Byte) (h : a ≠ i) :
    readByte (writeByte m i b) a = readByte m a := by
  induction m with
  | nil => simp [writeByte, readByte, Ne.symm h]
  | cons c m ih =>
    obtain ⟨k, x⟩ := c
    simp only [writeByte]
    split_ifs with h1 h2
    · simp [readByte, Ne.symm h]
    · subst h2
      simp [readByte, Ne.symm h]
    · simp [readByte, ih]

/-- Every entry after a write is the new one or an old one. -/
theorem mem_of_mem_writeByte {m : Memory} {i : Nat} {b : Byte} {c : Host.Cell}
    (h : c ∈ writeByte m i b) : c = (i, b) ∨ c ∈ m := by
  induction m with
  | nil => exact .inl (by simpa [writeByte] using h)
  | cons d m ih =>
    obtain ⟨a, x⟩ := d
    simp only [writeByte] at h
    split_ifs at h with h1 h2
    · simpa using h
    · rcases List.mem_cons.1 h with h | h
      · exact .inl h
      · exact .inr (List.mem_cons_of_mem _ h)
    · rcases List.mem_cons.1 h with h | h
      · exact .inr (h ▸ List.mem_cons_self ..)
      · exact (ih h).imp id (List.mem_cons_of_mem _)

/-- The empty buffer is in canonical form. -/
theorem Memory.wf_nil : Memory.wf [] := List.Pairwise.nil

/-- A write keeps the canonical form. -/
theorem writeByte_wf {m : Memory} (i : Nat) (b : Byte) (h : Memory.wf m) : Memory.wf (writeByte m i b) := by
  induction m with
  | nil => exact List.pairwise_singleton _ _
  | cons c m ih =>
    obtain ⟨a, x⟩ := c
    obtain ⟨hlt, hm⟩ := List.pairwise_cons.1 h
    simp only [writeByte]
    split_ifs with h1 h2
    · refine List.pairwise_cons.2 ⟨fun d hd => ?_, h⟩
      rcases List.mem_cons.1 hd with rfl | hd
      · exact h1
      · exact lt_trans h1 (hlt d hd)
    · exact List.pairwise_cons.2 ⟨fun d hd => h2 ▸ hlt d hd, hm⟩
    · refine List.pairwise_cons.2 ⟨fun d hd => ?_, ih hm⟩
      rcases mem_of_mem_writeByte hd with rfl | hd
      · show a < i
        omega
      · exact hlt d hd

/-- A write inside the address space keeps the buffer inside it. -/
theorem writeByte_inside {m : Memory} {i n : Nat} {b : Byte} (hi : i < n) (h : ∀ c ∈ m, c.1 < n) :
    ∀ c ∈ writeByte m i b, c.1 < n := fun c hc => by
  rcases mem_of_mem_writeByte hc with rfl | hc
  · exact hi
  · exact h c hc

/-- Below the first index of a canonical memory nothing has a value. -/
theorem readByte_eq_none_of_lt {m : Memory} {i : Nat} (h : ∀ c ∈ m, i < c.1) : readByte m i = none := by
  induction m with
  | nil => rfl
  | cons c m ih =>
    have hc := h c (List.mem_cons_self ..)
    rw [readByte_cons, if_neg (by omega)]
    exact ih fun d hd => h d (List.mem_cons_of_mem _ hd)

/-- Two canonical memories with the same reads are equal. -/
theorem Memory.ext_of_readByte {m m' : Memory} (h : Memory.wf m) (h' : Memory.wf m')
    (hr : ∀ i, readByte m i = readByte m' i) : m = m' := by
  induction m generalizing m' with
  | nil =>
    cases m' with
    | nil => rfl
    | cons d m' => have := hr d.1; simp [readByte_cons] at this
  | cons c m ih =>
    cases m' with
    | nil => have := hr c.1; simp [readByte_cons] at this
    | cons d m' =>
      obtain ⟨hc, hm⟩ := List.pairwise_cons.1 h
      obtain ⟨hd, hm'⟩ := List.pairwise_cons.1 h'
      have hcd : c.1 = d.1 := by
        by_contra hne
        rcases Nat.lt_or_gt_of_ne hne with hlt | hlt
        · have := hr c.1
          rw [readByte_cons, if_pos rfl, readByte_eq_none_of_lt (m := d :: m')] at this
          · exact absurd this (by simp)
          · intro e he
            rcases List.mem_cons.1 he with rfl | he
            · exact hlt
            · exact lt_trans hlt (hd e he)
        · have := hr d.1
          rw [readByte_cons (c := d), if_pos rfl, readByte_eq_none_of_lt (m := c :: m)] at this
          · exact absurd this (by simp)
          · intro e he
            rcases List.mem_cons.1 he with rfl | he
            · exact hlt
            · exact lt_trans hlt (hc e he)
      have hval : c.2 = d.2 := by
        have := hr c.1
        rw [readByte_cons, readByte_cons, if_pos rfl, if_pos hcd.symm] at this
        exact Option.some.inj this
      have htail : m = m' := by
        refine ih hm hm' fun i => ?_
        by_cases hi : c.1 = i
        · rw [readByte_eq_none_of_lt fun e he => hi ▸ hc e he,
            readByte_eq_none_of_lt fun e he => hi ▸ hcd ▸ hd e he]
        · have := hr i
          rwa [readByte_cons, readByte_cons, if_neg hi, if_neg (hcd ▸ hi)] at this
      rw [htail, Prod.ext hcd hval]

/-- A word is read exactly when both of its bytes have a value, and it is the two in order. -/
theorem readWord_eq_some_iff {m : Memory} {off : Nat} {w : Word} :
    readWord m off = some w ↔
      ∃ hi lo : Byte, readByte m off = some hi ∧ readByte m (off + 1) = some lo ∧ w = hi ++ lo := by
  unfold readWord
  cases readByte m off <;> cases readByte m (off + 1) <;> simp [eq_comm]

/-- No word is read exactly when one of its two bytes has no value. -/
theorem readWord_eq_none_iff {m : Memory} {off : Nat} :
    readWord m off = none ↔ readByte m off = none ∨ readByte m (off + 1) = none := by
  unfold readWord
  cases readByte m off <;> cases readByte m (off + 1) <;> simp

end Sys2Proof.Machine
end

