-- ==== Sys2Proof/Laws/State.lean ====
section
/-! SUPPORT. One lemma per field per update of State, so that no proof unfolds a record update. -/

namespace Sys2Proof.Machine

@[simp] theorem State.respond_buf (s : State) (r : Response) : (s.respond r).buf = s.buf := rfl
@[simp] theorem State.respond_len (s : State) (r : Response) : (s.respond r).len = s.len := rfl
@[simp] theorem State.respond_port (s : State) (r : Response) : (s.respond r).port = some r := rfl
@[simp] theorem State.respond_pending (s : State) (r : Response) : (s.respond r).pending = s.pending := rfl
@[simp] theorem State.respond_responses (s : State) (r : Response) :
    (s.respond r).responses = s.responses ++ [r] := rfl

theorem State.raise_eq_respond (s : State) (f : FaultCode) : s.raise f = s.respond (.fault f) := rfl

@[simp] theorem State.raise_buf (s : State) (f : FaultCode) : (s.raise f).buf = s.buf := rfl
@[simp] theorem State.raise_len (s : State) (f : FaultCode) : (s.raise f).len = s.len := rfl
@[simp] theorem State.raise_port (s : State) (f : FaultCode) : (s.raise f).port = some (.fault f) := rfl
@[simp] theorem State.raise_pending (s : State) (f : FaultCode) : (s.raise f).pending = s.pending := rfl
@[simp] theorem State.raise_responses (s : State) (f : FaultCode) :
    (s.raise f).responses = s.responses ++ [.fault f] := rfl

@[simp] theorem State.withBuf_buf (s : State) (m : Memory) : (s.withBuf m).buf = m := rfl
@[simp] theorem State.withBuf_len (s : State) (m : Memory) : (s.withBuf m).len = s.len := rfl
@[simp] theorem State.withBuf_port (s : State) (m : Memory) : (s.withBuf m).port = none := rfl
@[simp] theorem State.withBuf_pending (s : State) (m : Memory) : (s.withBuf m).pending = s.pending := rfl
@[simp] theorem State.withBuf_responses (s : State) (m : Memory) : (s.withBuf m).responses = s.responses := rfl

@[simp] theorem State.withLen_buf (s : State) (n : Nat) : (s.withLen n).buf = s.buf := rfl
@[simp] theorem State.withLen_len (s : State) (n : Nat) : (s.withLen n).len = n := rfl
@[simp] theorem State.withLen_port (s : State) (n : Nat) : (s.withLen n).port = none := rfl
@[simp] theorem State.withLen_pending (s : State) (n : Nat) : (s.withLen n).pending = s.pending := rfl
@[simp] theorem State.withLen_responses (s : State) (n : Nat) : (s.withLen n).responses = s.responses := rfl

@[simp] theorem State.withPending_buf (s : State) (p : List HostAction) : (s.withPending p).buf = s.buf := rfl
@[simp] theorem State.withPending_len (s : State) (p : List HostAction) : (s.withPending p).len = s.len := rfl
@[simp] theorem State.withPending_port (s : State) (p : List HostAction) : (s.withPending p).port = s.port := rfl
@[simp] theorem State.withPending_pending (s : State) (p : List HostAction) : (s.withPending p).pending = p := rfl
@[simp] theorem State.withPending_responses (s : State) (p : List HostAction) :
    (s.withPending p).responses = s.responses := rfl

@[simp] theorem State.afterReset_buf (s : State) : s.afterReset.buf = [] := rfl
@[simp] theorem State.afterReset_len (s : State) : s.afterReset.len = 0 := rfl
@[simp] theorem State.afterReset_port (s : State) : s.afterReset.port = none := rfl
@[simp] theorem State.afterReset_pending (s : State) : s.afterReset.pending = s.pending := rfl
@[simp] theorem State.afterReset_responses (s : State) : s.afterReset.responses = s.responses := rfl

@[simp] theorem State.withFetchWord_pending (s : State) (nbits w : Nat) :
    (s.withFetchWord nbits w).pending = .command (BitVec.ofNat 32 (w % 2 ^ nbits)) :: s.pending := rfl
@[simp] theorem State.withFetchWord_withPending (s : State) (nbits w : Nat) :
    (s.withFetchWord nbits w).withPending s.pending = s := rfl

end Sys2Proof.Machine
end

