-- ==== Sys2Proof/Laws/Commands.lean ====
section
/-! SUPPORT. What the shared operations of the commands can do, said once, and with it what `exec` and `step` can
do. -/

namespace Sys2Proof.Machine

/-- The assembler answers a word exactly in range, with both bytes written. -/
theorem assemble_eq_word_iff {s : State} {off : Nat} {w : Word} :
    assemble s off = .word w ↔ off + 1 < s.len ∧ readWord s.buf off = some w := by
  unfold assemble
  split_ifs with h
  · cases readWord s.buf off <;> simp [h]
  · simp [h]

/-- The assembler's range check. -/
theorem assemble_eq_outOfRange_iff {s : State} {off : Nat} :
    assemble s off = .outOfRange ↔ ¬ off + 1 < s.len := by
  unfold assemble
  split_ifs with h
  · cases readWord s.buf off <;> simp [h]
  · simp [h]

/-- The assembler misses a byte exactly in range, with a byte not written. -/
theorem assemble_eq_unwritten_iff {s : State} {off : Nat} :
    assemble s off = .unwritten ↔ off + 1 < s.len ∧ readWord s.buf off = none := by
  unfold assemble
  split_ifs with h
  · cases readWord s.buf off <;> simp [h]
  · simp [h]

/-- The assembler depends on the length and, in range, on the two bytes at the offset alone. -/
theorem assemble_congr {s t : State} {off : Nat} (hl : s.len = t.len)
    (hb : off + 1 < s.len →
      readByte s.buf off = readByte t.buf off ∧ readByte s.buf (off + 1) = readByte t.buf (off + 1)) :
    assemble s off = assemble t off := by
  unfold assemble
  by_cases h : off + 1 < s.len
  · rw [if_pos h, if_pos (hl ▸ h), readWord, readWord, (hb h).1, (hb h).2]
  · rw [if_neg h, if_neg (hl ▸ h)]

/-- Everything a buffer command can do: answer with its data, answer `OutOfRange`, or miss a byte. -/
theorem bufCommand_cases (f : Word → Data) (off : Nat) (s : State) :
    (∃ w, assemble s off = .word w ∧ bufCommand f off s = .next (s.respond (.ok (f w)))) ∨
    (assemble s off = .outOfRange ∧ bufCommand f off s = .next (s.raise .outOfRange)) ∨
    (assemble s off = .unwritten ∧ bufCommand f off s = .fault .unwrittenByte) := by
  unfold bufCommand
  cases h : assemble s off <;> simp

/-- Everything an immediate command can do. -/
theorem immCommand_eq (f : Word → Data) (raw : Nat) (s : State) :
    immCommand f raw s = .next (s.respond (.ok (f (sfMask raw)))) := rfl

/-- The form of a command: its operand is an offset into `BUF`, or an immediate pattern; with it, what its response
data is of its word. -/
theorem exec_form (i : Instr) :
    (i ∈ [.asm i.operand, .asmx i.operand, .asmd i.operand, .asmq i.operand] ∧
      ∃ f, ∀ s, exec i s = bufCommand f i.operand s) ∨
    (i ∈ [.sfx i.operand, .sfd i.operand, .sfq i.operand] ∧
      ∃ f, ∀ s, exec i s = immCommand f i.operand s) := by
  cases i with
  | asm off => exact .inl ⟨by simp [Instr.operand], _, fun _ => rfl⟩
  | asmx off => exact .inl ⟨by simp [Instr.operand], _, fun _ => rfl⟩
  | asmd off => exact .inl ⟨by simp [Instr.operand], _, fun _ => rfl⟩
  | asmq off => exact .inl ⟨by simp [Instr.operand], _, fun _ => rfl⟩
  | sfx raw => exact .inr ⟨by simp [Instr.operand], _, fun _ => rfl⟩
  | sfd raw => exact .inr ⟨by simp [Instr.operand], _, fun _ => rfl⟩
  | sfq raw => exact .inr ⟨by simp [Instr.operand], _, fun _ => rfl⟩

/-- Everything `exec` can do when it answers a next state: it responds with data, or with `OutOfRange`, which the
range check of a buffer command decides. -/
theorem exec_next {i : Instr} {s t : State} (h : exec i s = .next t) :
    (∃ d, t = s.respond (.ok d)) ∨
    (t = s.respond (.fault .outOfRange) ∧ ¬ i.operand + 1 < s.len ∧
      i ∈ [.asm i.operand, .asmx i.operand, .asmd i.operand, .asmq i.operand]) := by
  rcases exec_form i with ⟨hi, f, hf⟩ | ⟨-, f, hf⟩
  · rw [hf] at h
    rcases bufCommand_cases f i.operand s with ⟨w, -, hb⟩ | ⟨ha, hb⟩ | ⟨-, hb⟩ <;> rw [hb] at h <;> cases h
    · exact .inl ⟨_, rfl⟩
    · exact .inr ⟨rfl, assemble_eq_outOfRange_iff.1 ha, hi⟩
  · rw [hf, immCommand_eq] at h
    cases h
    exact .inl ⟨_, rfl⟩

/-- No command is refused. -/
theorem exec_not_refused (i : Instr) (s : State) (r : Refusal) : exec i s ≠ .refused r := by
  rcases exec_form i with ⟨-, f, hf⟩ | ⟨-, f, hf⟩
  · rw [hf]
    rcases bufCommand_cases f i.operand s with ⟨w, -, hb⟩ | ⟨-, hb⟩ | ⟨-, hb⟩ <;> simp [hb]
  · simp [hf, immCommand_eq]

/-- Everything a step can do when it answers a next state, by the host's next action. -/
theorem step_cases {s t : State} (h : step s = .next t) :
    (s.pending = [] ∧ t = s) ∨
    ∃ a rest, s.pending = a :: rest ∧
      (((a = .reset ∨ ∃ cw, a = .abandoned cw) ∧ t = (s.withPending rest).afterReset) ∨
       (∃ i b, a = .writeByte i b ∧ i < BUFSZ ∧ t = (s.withPending rest).withBuf (writeByte s.buf i b)) ∨
       (∃ n, a = .setLen n ∧ n ≤ BUFSZ ∧ t = (s.withPending rest).withLen n) ∨
       (∃ cw i, a = .command cw ∧ decode cw = .instr i ∧ exec i (s.withPending rest) = .next t) ∨
       (∃ cw why, a = .command cw ∧ decode cw = .reserved why ∧
          t = (s.withPending rest).respond (.fault .illegalCommand))) := by
  unfold step nextAction at h
  cases hp : s.pending with
  | nil =>
    simp only [hp] at h
    cases h
    exact .inl ⟨rfl, rfl⟩
  | cons a rest =>
    refine .inr ⟨a, rest, rfl, ?_⟩
    simp only [hp] at h
    cases a with
    | reset => cases h; exact .inl ⟨.inl rfl, rfl⟩
    | abandoned cw => cases h; exact .inl ⟨.inr ⟨cw, rfl⟩, rfl⟩
    | writeByte i b =>
      simp only [hostWriteByte] at h
      split_ifs at h with hi
      cases h
      exact .inr (.inl ⟨i, b, rfl, hi, rfl⟩)
    | setLen n =>
      simp only [hostSetLen] at h
      split_ifs at h with hn
      cases h
      exact .inr (.inr (.inl ⟨n, rfl, hn, rfl⟩))
    | command cw =>
      simp only at h
      cases hd : decode cw with
      | instr i => rw [hd] at h; exact .inr (.inr (.inr (.inl ⟨cw, i, rfl, hd, h⟩)))
      | reserved why =>
        rw [hd] at h
        cases h
        exact .inr (.inr (.inr (.inr ⟨cw, why, rfl, hd, rfl⟩)))

end Sys2Proof.Machine
end

