-- ==== Sys2Proof/Laws/Config.lean ====
section
/-! SUPPORT. The bounds of the buffer's capacity, the only thing that is known of it. -/

namespace Sys2Proof

/-- `6 <= BUFSZ <= 2^24` (00_scope.md R7). -/
theorem BUFSZ_bounds : 6 ≤ BUFSZ ∧ BUFSZ ≤ 2 ^ 24 := by
  have := Config.bufExtra.isLt
  unfold BUFSZ
  omega

end Sys2Proof
end

