-- ==== Sys2Proof/Laws/Encoding.lean ====
section
/-! SUPPORT. The two fields of a command word as numbers, and what they are for an opcode byte over an operand. -/

namespace Sys2Proof

/-- `CW[31:24]` as a number. -/
theorem opcField_toNat (cw : CommandWord) : (opcField cw).toNat = cw.toNat / 2 ^ 24 := by
  have := cw.isLt
  simp only [opcField, BitVec.extractLsb'_toNat, Nat.shiftRight_eq_div_pow]
  omega

/-- `CW[23:0]` as a number. -/
theorem opdField_eq (cw : CommandWord) : opdField cw = cw.toNat % 2 ^ 24 := by
  simp only [opdField, BitVec.extractLsb'_toNat, Nat.shiftRight_zero]

theorem high_byte_of_sum {x n : Nat} (hx : x < 2 ^ 8) (hn : n < 2 ^ 24) :
    (x * 2 ^ 24 + n) % 2 ^ 32 / 2 ^ 24 = x := by omega

theorem low_bits_of_sum {x n : Nat} (hn : n < 2 ^ 24) : (x * 2 ^ 24 + n) % 2 ^ 32 % 2 ^ 24 = n := by omega

/-- The opcode field of an opcode byte over an operand that fits. -/
theorem opcField_of_word (c : BitVec 8) {n : Nat} (h : n < 2 ^ 24) :
    opcField (BitVec.ofNat 32 (c.toNat <<< 24 ||| n)) = c := by
  rw [Machine.shiftLeft_or_eq_add h]
  apply BitVec.eq_of_toNat_eq
  rw [opcField_toNat, BitVec.toNat_ofNat, high_byte_of_sum c.isLt h]

/-- The operand field of an opcode byte over an operand that fits. -/
theorem opdField_of_word (c : BitVec 8) {n : Nat} (h : n < 2 ^ 24) :
    opdField (BitVec.ofNat 32 (c.toNat <<< 24 ||| n)) = n := by
  rw [Machine.shiftLeft_or_eq_add h, opdField_eq, BitVec.toNat_ofNat, low_bits_of_sum h]

/-- The reserved words, by the opcode byte. -/
theorem decode_reserved_iff (cw : CommandWord) :
    (∃ why, decode cw = .reserved why) ↔
      opcField cw ∉ [0x00#8, 0x01#8, 0x02#8, 0x03#8, 0x05#8, 0x06#8, 0x07#8] := by
  unfold decode
  split_ifs <;> simp_all

end Sys2Proof
end

