-- ==== Sys2Proof/Laws/PerInstr.lean ====
section
/-! SUPPORT. For every command: the two fields of its word are its opcode byte and its operand. -/

namespace Sys2Proof.Laws.EncodeFields

/-- The word of a well-formed command has the command's opcode byte in `CW[31:24]` and its operand in `CW[23:0]`. -/
def Statement (i : Instr) : Prop :=
  i.WellFormed → opcField (encode i) = opcodeOf i ∧ opdField (encode i) = i.operand

theorem asm (off : Nat) : Statement (.asm off) := fun h => ⟨opcField_of_word 0x00#8 h, opdField_of_word 0x00#8 h⟩
theorem asmx (off : Nat) : Statement (.asmx off) := fun h => ⟨opcField_of_word 0x01#8 h, opdField_of_word 0x01#8 h⟩
theorem asmd (off : Nat) : Statement (.asmd off) := fun h => ⟨opcField_of_word 0x02#8 h, opdField_of_word 0x02#8 h⟩
theorem asmq (off : Nat) : Statement (.asmq off) := fun h => ⟨opcField_of_word 0x03#8 h, opdField_of_word 0x03#8 h⟩
theorem sfx (raw : Nat) : Statement (.sfx raw) := fun h => ⟨opcField_of_word 0x05#8 h, opdField_of_word 0x05#8 h⟩
theorem sfd (raw : Nat) : Statement (.sfd raw) := fun h => ⟨opcField_of_word 0x06#8 h, opdField_of_word 0x06#8 h⟩
theorem sfq (raw : Nat) : Statement (.sfq raw) := fun h => ⟨opcField_of_word 0x07#8 h, opdField_of_word 0x07#8 h⟩

end Sys2Proof.Laws.EncodeFields
end

