-- ==== Sys2Proof/Laws/Run.lean ====
section
/-! SUPPORT. Runs of the machine: one step off the front of a run, and two runs in a row. The first three lemmas are
about any machine behind the host's interface; the others say them of this one, in its own names. -/

namespace Sys2Proof.Machine

theorem machineRun_next (M : Host.Core) {s t : M.State} (h : M.step s = .next t) (k : Nat) :
    M.run (k + 1) s = M.run k t := by
  rw [Host.Core.run, h]

theorem machineRun_fault (M : Host.Core) {s : M.State} {f : M.Fault} (h : M.step s = .fault f) (k : Nat) :
    M.run (k + 1) s = .fault f := by
  rw [Host.Core.run, h]

theorem machineRun_refused (M : Host.Core) {s : M.State} {r : M.Refusal} (h : M.step s = .refused r) (k : Nat) :
    M.run (k + 1) s = .refused r := by
  rw [Host.Core.run, h]

/-- A run whose first step answers a next state goes on from there. -/
theorem run_succ_of_next {s t : State} (h : step s = .next t) (k : Nat) : core.run (k + 1) s = core.run k t :=
  machineRun_next core h k

/-- A run whose first step is a fault ends in it. -/
theorem run_succ_of_fault {s : State} {f : Fault} (h : step s = .fault f) (k : Nat) :
    core.run (k + 1) s = .fault f :=
  machineRun_fault core h k

/-- A run whose first step is refused ends in the refusal. -/
theorem run_succ_of_refused {s : State} {r : Refusal} (h : step s = .refused r) (k : Nat) :
    core.run (k + 1) s = .refused r :=
  machineRun_refused core h k

/-- Two runs in a row are one run. -/
theorem run_add {k : Nat} {s t : State} (h : core.run k s = .next t) (l : Nat) :
    core.run (k + l) s = core.run l t := by
  induction k generalizing s with
  | zero => cases h; rw [Nat.zero_add]
  | succ k ih =>
    rw [Nat.succ_add]
    cases hs : step s with
    | next u =>
      have h' : core.run k u = .next t := (run_succ_of_next hs k).symm.trans h
      exact (run_succ_of_next hs (k + l)).trans (ih h')
    | fault f => cases (run_succ_of_fault hs k).symm.trans h
    | refused r => cases (run_succ_of_refused hs k).symm.trans h

end Sys2Proof.Machine
end

