-- ==== Sys2Proof/Tests/Slice0.lean ====
section
/-! SUPPORT. Small tests of the model against the spec's own words and vectors (95_test_vectors.md and the examples of
the rules), the refusals of WellFormed, and for every statement with hypotheses a concrete case that meets them. -/

namespace Sys2Proof.Tests

open Sys2Proof.Machine

-- ---------------------------------------------------------------- helpers

/-- Bytes at consecutive indices from `i` on. -/
def bufFrom : Nat → List Byte → Memory
  | _, [] => []
  | i, b :: bs => (i, b) :: bufFrom (i + 1) bs

/-- A block holding a payload, with these actions to come. -/
def loaded (bs : List Byte) (p : List HostAction) : State :=
  { State.reset with buf := bufFrom 0 bs, len := bs.length, pending := p }

/-- The state a step or a command leaves. -/
def nextOf : Host.Outcome State Fault Refusal → Option State
  | .next t => some t
  | .fault _ => none
  | .refused _ => none

/-- The response a step or a command leaves on the port. -/
def answer (o : Host.Outcome State Fault Refusal) : Option Response := (nextOf o).bind State.port

-- ---------------------------------------------------------------- WellFormed and decoding

/-- An offset of `2^24` has no encoding (R63). -/
theorem test_wellFormed_refuses_offset : ¬ (Instr.asm 0x1000000).WellFormed ∧ ¬ (Instr.asmx 0x1000000).WellFormed ∧
    ¬ (Instr.asmd 0x1000000).WellFormed ∧ ¬ (Instr.asmq 0x1000000).WellFormed := by decide

/-- A raw pattern of `2^24` has no encoding (R64). -/
theorem test_wellFormed_refuses_raw : ¬ (Instr.sfx 0x1000000).WellFormed ∧ ¬ (Instr.sfd 0x1000000).WellFormed ∧
    ¬ (Instr.sfq 0x1000000).WellFormed := by decide

/-- Every constructor's decoding, by words written out bit by bit from the opcode table's encodings. -/
theorem test_decode_each :
    decode 0b00000000111111111111111111111111#32 = .instr (.asm 0xFFFFFF) ∧
    decode 0b00000001000000000000000000000001#32 = .instr (.asmx 1) ∧
    decode 0b00000010000000000000000000000010#32 = .instr (.asmd 2) ∧
    decode 0b00000011100000000000000000000000#32 = .instr (.asmq 0x800000) ∧
    decode 0b00000101000000001000000000000000#32 = .instr (.sfx 0x8000) ∧
    decode 0b00000110101010110100010000000000#32 = .instr (.sfd 0xAB4400) ∧
    decode 0b00000111000000001111111111111111#32 = .instr (.sfq 0xFFFF) := by decide

/-- Reserved words (95_test_vectors.md section 2.8). -/
theorem test_decode_reserved :
    decode 0x04FFFFFF#32 = .reserved .immWord ∧ decode 0x08000000#32 = .reserved .rsvNonzero ∧
    decode 0x0A000005#32 = .reserved .rsvNonzero ∧ decode 0x80000000#32 = .reserved .rsvNonzero := by decide

/-- The encoder gives the words of 30_encoding.md section 7. -/
theorem test_encode_examples :
    encode (.asm 0) = 0x00000000#32 ∧ encode (.asmx 1) = 0x01000001#32 ∧ encode (.asmd 2) = 0x02000002#32 ∧
    encode (.asmq 3) = 0x03000003#32 ∧ encode (.sfx 0x8000) = 0x05008000#32 ∧ encode (.sfd 0x4400) = 0x06004400#32 ∧
    encode (.sfq 0xFFFF) = 0x0700FFFF#32 := by decide

-- ---------------------------------------------------------------- the commands

/-- 95 section 2.1: no sign extension, and not little-endian. -/
theorem test_asm_big_endian : answer (exec (.asm 0) (loaded [0xFF, 0x80] [])) = some (.ok 0x000000000000FF80) := by decide

/-- 95 section 2.1: the last word succeeds, one further faults. -/
theorem test_asm_range :
    answer (exec (.asm 3) (loaded [0x07, 0x09, 0x60, 0x09, 0x60] [])) = some (.ok 0x0000000000000960) ∧
    answer (exec (.asm 4) (loaded [0x07, 0x09, 0x60, 0x09, 0x60] [])) = some (.fault .outOfRange) := by decide

/-- R120's example. -/
theorem test_asmx_fields :
    answer (exec (.asmx 0) (loaded [0x6F, 0xD7, 0x7A, 0x00] [])) = some (.ok 0x00000000000D07D7) := by decide

/-- R121's examples, and bytes `0x80, 0x00` giving negative zero. -/
theorem test_asmd_value :
    answer (exec (.asmd 0) (loaded [0x6F, 0xD7, 0x7A, 0x00] [])) = some (.ok 0x3FCF5C0000000000) ∧
    answer (exec (.asmd 2) (loaded [0x6F, 0xD7, 0x7A, 0x00] [])) = some (.ok 0x3FD0000000000000) ∧
    answer (exec (.asmd 0) (loaded [0x80, 0x00] [])) = some (.ok 0x8000000000000000) := by decide

/-- R122's example and its corner case `0xFF, 0xFF`. -/
theorem test_asmq_value :
    answer (exec (.asmq 0) (loaded [0x6F, 0xD7, 0x7A, 0x00] [])) = some (.ok 0x0000000000FAE000) ∧
    answer (exec (.asmq 0) (loaded [0xFF, 0xFF] [])) = some (.ok 0xFFFFFFFFFC008000) := by decide

/-- R103's example (mantissa `0x400`, 90_conflicts.md C1) and 95 section 2.7. -/
theorem test_sfx_fields :
    answer (exec (.sfx 0x4400) State.reset) = some (.ok 0x0000000000080400) ∧
    answer (exec (.sfx 0xFFFFFF) State.reset) = some (.ok 0x00000000010F07FF) := by decide

/-- 95 sections 2.2, 2.4 and 2.7: masking first, both zeros, the smallest and the largest value, a mantissa with its
leading 1 in the middle. -/
theorem test_sfd_value :
    answer (exec (.sfd 0xAB4400) State.reset) = some (.ok 0x3F70000000000000) ∧
    answer (exec (.sfd 0xFF8000) State.reset) = some (.ok 0x8000000000000000) ∧
    answer (exec (.sfd 0x7800) State.reset) = some (.ok 0x0000000000000000) ∧
    answer (exec (.sfd 0x0001) State.reset) = some (.ok 0x3E50000000000000) ∧
    answer (exec (.sfd 0xFFFF) State.reset) = some (.ok 0xBFEFFC0000000000) ∧
    answer (exec (.sfd 0x5155) State.reset) = some (.ok 0x3F75500000000000) := by decide

/-- 95 section 2.2: negative values in two's complement, no negative zero. -/
theorem test_sfq_value :
    answer (exec (.sfq 0x8001) State.reset) = some (.ok 0xFFFFFFFFFFFFFFFF) ∧
    answer (exec (.sfq 0xEFD7) State.reset) = some (.ok 0xFFFFFFFFFF052000) ∧
    answer (exec (.sfq 0x8000) State.reset) = some (.ok 0x0000000000000000) := by decide

/-- A reserved word answers `IllegalCommand` although its operand would be out of range (R136). -/
theorem test_step_illegal : answer (step (loaded [0x44, 0x00] [.command 0x0A000005])) = some (.fault .illegalCommand) := by
  decide

/-- The first command after reset: an immediate one works, a buffer one is out of range (R151). -/
theorem test_step_from_reset :
    answer (step (State.reset.withFetchWord 32 0x06004400)) = some (.ok 0x3F70000000000000) ∧
    answer (step (State.reset.withFetchWord 32 0x02000000)) = some (.fault .outOfRange) := by decide

/-- A byte below `LEN` that nothing has written is a fault of the model (R154). -/
theorem test_unwritten_byte : nextOf (exec (.asm 0) { State.reset with len := 2, buf := [(0, 0xAB)] }) = none := by decide

/-- Writing keeps the buffer sorted and replaces what stood there. -/
theorem test_write_byte :
    writeByte [(1, 0x11), (3, 0x33)] 2 0x22 = [(1, 0x11), (2, 0x22), (3, 0x33)] ∧
    writeByte [(1, 0x11), (3, 0x33)] 3 0x44 = [(1, 0x11), (3, 0x44)] := by decide

/-- `RESET` clears the block, also while a command is outstanding (R150, R151). -/
theorem test_reset :
    nextOf (step (loaded [0x44, 0x00] [.reset])) = some State.reset ∧
    nextOf (step (loaded [0x44, 0x00] [.abandoned 0x02000000])) = some State.reset := by decide

/-- A host write inside the smallest buffer, and a length. -/
theorem test_host_write :
    (nextOf (step (loaded [0x44, 0x00] [.writeByte 1 0x55]))).map State.buf = some [(0, 0x44), (1, 0x55)] ∧
    (nextOf (step (loaded [0x44, 0x00] [.setLen 1]))).map State.len = some 1 := by decide

-- ---------------------------------------------------------------- witnesses

/-- A state in which one byte is a word's high half and one its low half. -/
def pair (p : List HostAction) : State := loaded [0x6F, 0xD7] p

theorem pair_inv (p : List HostAction) : (pair p).Inv where
  canonical := show Memory.wf (bufFrom 0 [0x6F, 0xD7]) by decide
  inside := show ∀ c ∈ bufFrom 0 [0x6F, 0xD7], c.1 < BUFSZ by decide
  legalLen := show 2 ≤ BUFSZ by decide
  portLast := nofun

theorem pair_payloadWritten (p : List HostAction) : (pair p).PayloadWritten := by
  show ∀ i, i < 2 → (readByte (bufFrom 0 [0x6F, 0xD7]) i).isSome = true
  decide

theorem witness_DecodeOfEncodeIsIdentity : (Instr.asm 0).WellFormed ∧ (Instr.sfq 0xFFFFFF).WellFormed := by decide

theorem witness_EncodeOfDecodeIsIdentity : decode 0x00FFFFFF#32 = .instr (.asm 0xFFFFFF) := by decide

theorem witness_DecodeByOpcode :
    (0x00FFFFFF#32).toNat / 2 ^ 24 = 0x00 ∧ (0x01000000#32).toNat / 2 ^ 24 = 0x01 ∧
    (0x02FFFFFF#32).toNat / 2 ^ 24 = 0x02 ∧ (0x03000000#32).toNat / 2 ^ 24 = 0x03 ∧
    (0x05FFFFFF#32).toNat / 2 ^ 24 = 0x05 ∧ (0x06000000#32).toNat / 2 ^ 24 = 0x06 ∧
    (0x07FFFFFF#32).toNat / 2 ^ 24 = 0x07 ∧
    (0x04000000#32).toNat / 2 ^ 24 ∉ [0x00, 0x01, 0x02, 0x03, 0x05, 0x06, 0x07] ∧
    (0x08000000#32).toNat / 2 ^ 24 ∉ [0x00, 0x01, 0x02, 0x03, 0x05, 0x06, 0x07] ∧
    (pair [.command 0x08000000]).pending = .command 0x08000000 :: [] := by decide

theorem witness_ReservedWordsExactly :
    decode 0x04000000#32 = .reserved .immWord ∧
    (pair [.command 0x04000000]).pending = .command 0x04000000 :: [] ∧ (0xFFFFFF : Nat) < 2 ^ 24 ∧
    (nextOf (step (pair [.command 0x04000000]))).isSome = true := by decide

theorem witness_OpcodeSubFields :
    (Instr.asm 0xFFFFFF).WellFormed ∧ (Instr.asmx 0).WellFormed ∧ (Instr.asmd 1).WellFormed ∧
    (Instr.asmq 2).WellFormed ∧ (Instr.sfx 0xFFFFFF).WellFormed ∧ (Instr.sfd 0).WellFormed ∧
    (Instr.sfq 1).WellFormed := by decide

theorem witness_StepRunsDecodedCommand :
    (pair [.command 0x02000000]).pending = .command 0x02000000 :: [] ∧ decode 0x02000000#32 = .instr (.asmd 0) ∧
    decodeTableWord 32 0x02000000 = some (.asmd 0) := by decide

theorem witness_IdleRunKeepsState : State.reset.pending = [] := rfl

theorem witness_IllegalCommandExactly :
    ((0x08000000#32).toNat / 2 ^ 27 ≠ 0 ∨ (0x08000000#32).toNat / 2 ^ 24 = 0x04) ∧
    ((0x04FFFFFF#32).toNat / 2 ^ 27 ≠ 0 ∨ (0x04FFFFFF#32).toNat / 2 ^ 24 = 0x04) ∧
    answer (step (pair [.command 0x08000000])) = some (.fault .illegalCommand) ∧
    answer (step (pair [.command 0x04FFFFFF])) = some (.fault .illegalCommand) := by decide

theorem witness_OutOfRangeExactly :
    Instr.asmq 1 ∈ [Instr.asm 1, .asmx 1, .asmd 1, .asmq 1] ∧ (pair []).len ≤ 1 + 1 ∧
    answer (exec (.asmq 1) (pair [])) = some (.fault .outOfRange) := by decide

theorem witness_FaultPriority :
    (pair [.command 0x0A000005]).pending = .command 0x0A000005 :: [] ∧
    answer (step (pair [.command 0x0A000005])) = some (.fault .illegalCommand) ∧
    answer (step (pair [.command 0x02000001])) = some (.fault .outOfRange) := by decide

/-- The bytes of `pair` at offset 0, the last offset in range: the hypotheses of the four buffer commands' completion
and of `AssembleBigEndian`; offset 1 fails the range check. -/
theorem witness_AsmCompletes : 0 + 1 < (pair []).len ∧ readByte (pair []).buf 0 = some 0x6F ∧
    readByte (pair []).buf (0 + 1) = some 0xD7 := by decide

theorem witness_AsmxCompletes : 0 + 1 < (pair []).len ∧ readByte (pair []).buf 0 = some 0x6F ∧
    readByte (pair []).buf (0 + 1) = some 0xD7 := witness_AsmCompletes

theorem witness_AsmdCompletes : 0 + 1 < (pair []).len ∧ readByte (pair []).buf 0 = some 0x6F ∧
    readByte (pair []).buf (0 + 1) = some 0xD7 := witness_AsmCompletes

theorem witness_AsmqCompletes : 0 + 1 < (pair []).len ∧ readByte (pair []).buf 0 = some 0x6F ∧
    readByte (pair []).buf (0 + 1) = some 0xD7 := witness_AsmCompletes

theorem witness_AssembleBigEndian : ¬ 1 + 1 < (pair []).len ∧ 0 + 1 < (pair []).len ∧
    readByte (pair []).buf 0 = some 0x6F ∧ readByte (pair []).buf (0 + 1) = some 0xD7 := by decide

theorem witness_CompositionLaw : (0 + 1 < (pair []).len ∧ readByte (pair []).buf 0 = some 0x6F ∧
    readByte (pair []).buf (0 + 1) = some 0xD7) ∧ ¬ 1 + 1 < (pair []).len ∧
    Instr.asmd 1 ∈ [Instr.asmx 1, .asmd 1, .asmq 1] ∧
    answer (exec (.asmd 1) (pair [])) = some (.fault .outOfRange) := by decide

theorem witness_OverlappingWordsShareAByte :
    assemble (loaded [0x09, 0x60, 0x12] []) 0 = .word 0x0960 ∧
    assemble (loaded [0x09, 0x60, 0x12] []) (0 + 1) = .word 0x6012 := by decide

/-- Both bytes of a word in range can be the missing one. -/
theorem witness_UnwrittenByteFaultExactly :
    (0 + 1 < 2 ∧ readByte [(0, 0xAB)] (0 + 1) = none) ∧ (0 + 1 < 2 ∧ readByte [(1, 0xCD)] 0 = none) ∧
    nextOf (exec (.asmd 0) { State.reset with len := 2, buf := [(0, 0xAB)] }) = none := by decide

theorem witness_CommandFrame : (nextOf (exec (.asmd 0) (pair []))).isSome = true ∧
    (nextOf (exec (.sfq 0) (pair []))).isSome = true := by decide

theorem witness_PatternsShareValues : 1 < 2 ∧ 14 < 15 ∧ 1023 ≤ 1023 ∧ 0 < 2 ∧ 0 < 15 ∧ 0 ≤ 1023 := by decide

/-- The mantissas 0, 1 and 2047: the zero clause, and the leading-one clause at both ends of its range. -/
theorem witness_F64PatternIsExact :
    (0xF800#16).toNat % 2 ^ 11 = 0 ∧
    (2 ^ 0 ≤ (0x0001#16).toNat % 2 ^ 11 ∧ (0x0001#16).toNat % 2 ^ 11 < 2 ^ (0 + 1)) ∧
    (2 ^ 10 ≤ (0xFFFF#16).toNat % 2 ^ 11 ∧ (0xFFFF#16).toNat % 2 ^ 11 < 2 ^ (10 + 1)) := by decide

theorem witness_ZeroKeepsItsSign : 0 < 16 ∧ 15 < 16 := by decide

theorem witness_ValueRange : sfValue 0x0001#16 ≠ 0 := by
  unfold sfValue
  norm_num [sfSign, sfExp, sfMan]

theorem witness_Q26IsExact : ((0 : ℤ) : ℚ) / 2 ^ 26 = sfValue 0x8000#16 ∧ 25 < 26 := by
  unfold sfValue
  norm_num [sfSign, sfExp, sfMan]

theorem witness_Q26Format : (27 ≤ 27 ∧ 27 < 64 ∧ 27 ≤ 63 ∧ 63 < 64) ∧ (27 ≤ 27 ∧ 27 ≤ 64 ∧ 27 ≤ 64 ∧ 64 ≤ 64) ∧
    (0x8000#16).toNat % 2 ^ 11 = 0 := by decide

theorem witness_FieldWordLayout : sfFields 0xFFFF#16 = sfFields 0xFFFF#16 := rfl

/-- Two states with one buffer and length and different histories, and a command both answer; and a command both miss
a byte for. -/
theorem witness_ResponseDependsOnBufAndLenOnly :
    (pair [.command 0x02000000]).pending = .command 0x02000000 :: [] ∧
    ({ pair [.command 0x02000000, .reset] with responses := [.fault .illegalCommand] } : State).pending =
      .command 0x02000000 :: [.reset] ∧
    (nextOf (step (pair [.command 0x02000000]))).isSome = true ∧
    (nextOf (step { State.reset with len := 2, pending := [.command 0x02000000] })).isSome = false := by decide

theorem witness_RepeatedCommandRepeatsResponse :
    (pair [.command 0x02000000, .command 0x02000000]).pending = .command 0x02000000 :: .command 0x02000000 :: [] ∧
    (nextOf (step (pair [.command 0x02000000, .command 0x02000000]))).isSome = true := by decide

theorem witness_FaultLeavesNoTrace :
    (pair [.command 0x02000001, .command 0x02000000]).pending = .command 0x02000001 :: .command 0x02000000 :: [] ∧
    answer (step (pair [.command 0x02000001, .command 0x02000000])) = some (.fault .outOfRange) ∧
    (nextOf (step { pair [.command 0x02000001, .command 0x02000000] with pending := [.command 0x02000000] })).isSome
      = true := by decide

/-- Two buffers that differ at `LEN` only. -/
theorem witness_BytesBeyondLenAreUnreadable :
    ∀ i, i < 2 → readByte (bufFrom 0 [0x01, 0x02, 0x03]) i = readByte (bufFrom 0 [0x01, 0x02, 0x04]) i := by decide

/-- A length changed, a byte given a value, and a fault. -/
theorem witness_OnlyHostActionsChangeState :
    (nextOf (step (pair [.setLen 1]))).map State.len = some 1 ∧ (pair [.setLen 1]).len ≠ 1 ∧
    (nextOf (step (pair [.writeByte 2 0x07]))).map (fun t => readByte t.buf 2) = some (some 0x07) ∧
    readByte (pair [.writeByte 2 0x07]).buf 2 ≠ some 0x07 ∧
    answer (step (pair [.command 0x00000001])) = some (.fault .outOfRange) := by decide

theorem witness_StepKeepsInvariant :
    (pair [.writeByte 1 0x55]).Inv ∧ (nextOf (step (pair [.writeByte 1 0x55]))).isSome = true :=
  ⟨pair_inv _, by decide⟩

/-- Every kind of in-contract action, the length at the edge of what is written. -/
theorem witness_InContractStepCompletes :
    (pair []).Inv ∧ (pair []).PayloadWritten ∧ (pair []).InContract (.writeByte 5 0x07) ∧
    (pair []).InContract (.setLen 2) ∧ (pair []).InContract (.command 0x02000000) ∧
    (pair []).InContract .reset ∧ (pair []).InContract (.abandoned 0x02000000) :=
  ⟨pair_inv _, pair_payloadWritten _, show 5 < BUFSZ by decide,
    show 2 ≤ BUFSZ ∧ ∀ i, i < 2 → (readByte (bufFrom 0 [0x6F, 0xD7]) i).isSome = true by decide,
    trivial, trivial, trivial⟩

theorem witness_ResponsesComeInOrder :
    (pair [.command 0x02000000, .command 0x04000000]).PayloadWritten ∧
    (pair [.command 0x02000000, .command 0x04000000]).pending =
      [0x02000000#32, 0x04000000#32].map HostAction.command ++ [] :=
  ⟨pair_payloadWritten _, rfl⟩

theorem witness_AfterReset :
    (pair [.reset]).pending = .reset :: [] ∧ (pair [.abandoned 0x02000000]).pending = .abandoned 0x02000000 :: [] ∧
    Instr.asmx 0 ∈ [Instr.asm 0, .asmx 0, .asmd 0, .asmq 0] ∧ Instr.sfd 0 ∈ [Instr.sfx 0, .sfd 0, .sfq 0] := by decide

/-- The last index of the buffer. -/
theorem witness_HostWriteByteEffect :
    (pair [.writeByte (BUFSZ - 1) 0x07]).pending = .writeByte (BUFSZ - 1) 0x07 :: [] ∧ BUFSZ - 1 < BUFSZ :=
  ⟨rfl, by have := BUFSZ_bounds; omega⟩

/-- The largest length. -/
theorem witness_HostSetLenEffect : (pair [.setLen BUFSZ]).pending = .setLen BUFSZ :: [] ∧ BUFSZ ≤ BUFSZ :=
  ⟨rfl, le_refl _⟩

/-- The first index outside, the first length too large, and a payload one byte too long. -/
theorem witness_OutsideContractRefused :
    (pair [.writeByte BUFSZ 0x07]).pending = .writeByte BUFSZ 0x07 :: [] ∧ BUFSZ ≤ BUFSZ ∧
    (pair [.setLen (BUFSZ + 1)]).pending = .setLen (BUFSZ + 1) :: [] ∧ BUFSZ < BUFSZ + 1 ∧
    BUFSZ < (List.replicate (BUFSZ + 1) (0x00 : Byte)).length ∧
    (pair (loadActions (List.replicate (BUFSZ + 1) 0x00) ++ [])).pending =
      loadActions (List.replicate (BUFSZ + 1) 0x00) ++ [] :=
  ⟨rfl, le_refl _, rfl, Nat.lt_succ_self _, by simp, rfl⟩

/-- The longest payload of the source, six bytes (95_test_vectors.md P1), and one that fills the buffer. -/
theorem witness_LoadPutsPayload :
    (State.reset.withPending (loadActions [0x00, 0x00, 0x09, 0x60, 0x12, 0x34] ++ [])).pending =
      loadActions [0x00, 0x00, 0x09, 0x60, 0x12, 0x34] ++ [] ∧
    [0x00, 0x00, 0x09, 0x60, 0x12, (0x34 : Byte)].length ≤ BUFSZ ∧
    (List.replicate BUFSZ (0x00 : Byte)).length ≤ BUFSZ :=
  ⟨rfl, by decide, by simp⟩

theorem witness_WritesInAnyOrder : (pair []).Inv ∧ 0 ≠ 1 := ⟨pair_inv _, by decide⟩

theorem witness_HostKeepsNothingAfterFault :
    (∃ r ∈ [Response.ok 0x0960, .fault .outOfRange], r.status ≠ 0#2) ∧
    (∀ r ∈ [Response.ok 0x0960, .ok 0x0000], r.status = 0#2) := by decide

end Sys2Proof.Tests
end

section
/-! SUPPORT. The response to a command word is a function of `BUF`, `LEN` and the word alone (00_scope.md R10), said
once through the model's `reply`; and from it the statements of 20_memory.md. -/

namespace Sys2Proof.Machine

/-- A command treats two states with one buffer and one length alike: the same response in both, or the model's fault
in both. -/
theorem exec_alike (i : Instr) {s t : State} (hb : s.buf = t.buf) (hl : s.len = t.len) :
    (∃ r, exec i s = .next (s.respond r) ∧ exec i t = .next (t.respond r)) ∨
    (exec i s = .fault .unwrittenByte ∧ exec i t = .fault .unwrittenByte) := by
  rcases exec_form i with ⟨-, f, hf⟩ | ⟨-, f, hf⟩
  · have ha : assemble s i.operand = assemble t i.operand := assemble_congr hl fun _ => by simp [hb]
    rw [hf, hf, bufCommand, bufCommand, ← ha]
    cases assemble s i.operand with
    | word w => exact .inl ⟨.ok (f w), rfl, rfl⟩
    | outOfRange => exact .inl ⟨.fault .outOfRange, rfl, rfl⟩
    | unwritten => exact .inr ⟨rfl, rfl⟩
  · exact .inl ⟨.ok (f (sfMask i.operand)), hf s, hf t⟩

/-- A step on a command word executes the command it decodes to. -/
theorem step_command_of_instr {s : State} {cw : CommandWord} {rest : List HostAction} {i : Instr}
    (hp : s.pending = .command cw :: rest) (hd : decode cw = .instr i) : step s = exec i (s.withPending rest) := by
  simp only [step, nextAction, hp, hd]

/-- A step on a reserved command word responds with `IllegalCommand`. -/
theorem step_command_of_reserved {s : State} {cw : CommandWord} {rest : List HostAction} {why : ReservedWord}
    (hp : s.pending = .command cw :: rest) (hd : decode cw = .reserved why) :
    step s = .next ((s.withPending rest).respond (.fault .illegalCommand)) := by
  simp only [step, nextAction, hp, hd, illegalCommand, State.raise_eq_respond]

/-- Everything a step on a command word can do: respond with the reply of the buffer and the length, or fault where
they give none. -/
theorem step_command_cases {s : State} {cw : CommandWord} {rest : List HostAction}
    (hp : s.pending = .command cw :: rest) :
    (∃ r, reply s.buf s.len cw = some r ∧ step s = .next ((s.withPending rest).respond r)) ∨
    (reply s.buf s.len cw = none ∧ step s = .fault .unwrittenByte) := by
  unfold reply
  cases hd : decode cw with
  | instr i =>
    rw [step_command_of_instr hp hd, step_command_of_instr rfl hd]
    rcases exec_alike i (s := s.withPending rest)
      (t := State.withPending { State.reset with buf := s.buf, len := s.len, pending := [.command cw] } [])
      rfl rfl with ⟨r, hs, ht⟩ | ⟨hs, ht⟩
    · exact .inl ⟨r, by simp only [ht, State.respond_port], hs⟩
    · exact .inr ⟨by rw [ht], hs⟩
  | reserved why =>
    rw [step_command_of_reserved hp hd, step_command_of_reserved rfl hd]
    exact .inl ⟨_, rfl, rfl⟩

/-- A command word with a reply gets it as its response. -/
theorem step_command_of_reply {s : State} {cw : CommandWord} {rest : List HostAction} {r : Response}
    (hp : s.pending = .command cw :: rest) (hr : reply s.buf s.len cw = some r) :
    step s = .next ((s.withPending rest).respond r) := by
  rcases step_command_cases hp with ⟨r', hr', hs⟩ | ⟨hn, -⟩
  · cases hr.symm.trans hr'
    exact hs
  · cases hr.symm.trans hn

/-- A command word that the block answers has a reply, and the step does no more than respond with it. -/
theorem reply_of_step_command {s t : State} {cw : CommandWord} {rest : List HostAction}
    (hp : s.pending = .command cw :: rest) (h : step s = .next t) :
    ∃ r, reply s.buf s.len cw = some r ∧ t = (s.withPending rest).respond r := by
  rcases step_command_cases hp with ⟨r, hr, hs⟩ | ⟨-, hf⟩
  · cases hs.symm.trans h
    exact ⟨r, hr, rfl⟩
  · cases hf.symm.trans h

/-- Settles O40: the first response is the reply of the buffer and the length, and it leaves both in place, so the
second is the same reply. -/
theorem repeatedCommandRepeatsResponse : Obligations.RepeatedCommandRepeatsResponse := by
  intro s t cw rest hp h
  obtain ⟨r, hr, rfl⟩ := reply_of_step_command hp h
  have hstep := step_command_of_reply (s := (s.withPending (.command cw :: rest)).respond r) rfl hr
  exact ⟨r, _, rfl, rfl, rfl, hstep, rfl, rfl, rfl, rfl, by simp⟩

end Sys2Proof.Machine
end

section
/-! SUPPORT. The decoder by the opcode byte as a number (30_encoding.md R62, R65, R76), and from it the statements
about the seven commands and the reserved words. -/

namespace Sys2Proof.Machine

/-- The opcode field of a command word against a fixed byte, as numbers. -/
theorem opcField_eq_iff {cw : CommandWord} {c : BitVec 8} : opcField cw = c ↔ cw.toNat / 2 ^ 24 = c.toNat := by
  rw [← BitVec.toNat_inj, opcField_toNat]

/-- A word with the opcode byte of a command and its operand below decodes to that command. -/
theorem decode_of_opcode {cw : CommandWord} {i : Instr} (hopc : cw.toNat / 2 ^ 24 = (opcodeOf i).toNat)
    (hopd : cw.toNat % 2 ^ 24 = i.operand) : decode cw = .instr i := by
  have hc : opcField cw = opcodeOf i := opcField_eq_iff.2 hopc
  have hn : opdField cw = i.operand := (opdField_eq cw).trans hopd
  unfold decode
  rw [hc, hn]
  cases i <;> rfl

/-- The reserved words, by the opcode byte as a number. -/
theorem decode_reserved_iff_opcode (cw : CommandWord) :
    (∃ why, decode cw = .reserved why) ↔ cw.toNat / 2 ^ 24 ∉ [0x00, 0x01, 0x02, 0x03, 0x05, 0x06, 0x07] := by
  rw [decode_reserved_iff]
  simp [opcField_eq_iff]

/-- R65's own form: the opcode bytes that are none of the seven are those with a bit set in `CW[31:27]`, and `0x04`. -/
theorem decode_reserved_iff_rsv (cw : CommandWord) :
    (∃ why, decode cw = .reserved why) ↔ cw.toNat / 2 ^ 27 ≠ 0 ∨ cw.toNat / 2 ^ 24 = 0x04 := by
  rw [decode_reserved_iff_opcode]
  simp only [List.mem_cons, List.not_mem_nil, or_false]
  omega

/-- A 32-bit pattern reads as no command exactly when its word is reserved. -/
theorem decodeTableWord_isNone_iff (w : Nat) :
    (decodeTableWord 32 w).isNone ↔ ∃ why, decode (BitVec.ofNat 32 (w % 2 ^ 32)) = .reserved why := by
  unfold decodeTableWord
  cases decode (BitVec.ofNat 32 (w % 2 ^ 32)) <;> simp

/-- An opcode byte over any operand reads as no command exactly when the byte is none of the seven. -/
theorem decodeTableWord_isNone_iff_opcode {opc n : Nat} (hopc : opc < 256) (hn : n < 2 ^ 24) :
    (decodeTableWord 32 (opc * 2 ^ 24 + n)).isNone ↔ opc ∉ [0x00, 0x01, 0x02, 0x03, 0x05, 0x06, 0x07] := by
  rw [decodeTableWord_isNone_iff, decode_reserved_iff_opcode, BitVec.toNat_ofNat, Nat.mod_mod,
    high_byte_of_sum hopc hn]

/-- Of the 256 bytes the seven opcodes leave 249: `0x04` of the first eight, and all 248 above. -/
theorem count_bytes_not_opcode :
    ((List.range 256).filter (fun opc => opc ∉ [0x00, 0x01, 0x02, 0x03, 0x05, 0x06, 0x07])).length = 249 := by
  have hlow : (List.range 8).filter (fun opc => opc ∉ [0x00, 0x01, 0x02, 0x03, 0x05, 0x06, 0x07]) = [0x04] := by
    decide
  have hhigh : ∀ opc ∈ (List.range 248).map (8 + ·), opc ∉ [0x00, 0x01, 0x02, 0x03, 0x05, 0x06, 0x07] := by
    intro opc h
    obtain ⟨k, -, rfl⟩ := List.mem_map.1 h
    simp only [List.mem_cons, List.not_mem_nil, or_false]
    omega
  rw [List.range_add (n := 8) (m := 248), List.filter_append, hlow,
    List.filter_eq_self.2 fun opc h => decide_eq_true (hhigh opc h)]
  simp

/-- 249 of the 256 opcode bytes are reserved, whatever the operand. -/
theorem count_reserved_opcodes {n : Nat} (hn : n < 2 ^ 24) :
    ((List.range 256).filter (fun opc => (decodeTableWord 32 (opc * 2 ^ 24 + n)).isNone)).length = 249 := by
  rw [← count_bytes_not_opcode]
  refine congrArg List.length (List.filter_congr fun opc h => ?_)
  rw [Bool.eq_iff_iff, decodeTableWord_isNone_iff_opcode (List.mem_range.1 h) hn, decide_eq_true_iff]

/-- Settles O4: the opcode byte and the operand give the command; any other opcode byte is a reserved word, whose
step responds with `IllegalCommand`. -/
theorem decodeByOpcode : Obligations.DecodeByOpcode := by
  intro cw
  refine ⟨(decode_of_opcode · rfl), (decode_of_opcode · rfl), (decode_of_opcode · rfl), (decode_of_opcode · rfl),
    (decode_of_opcode · rfl), (decode_of_opcode · rfl), (decode_of_opcode · rfl), fun hopc => ?_⟩
  obtain ⟨why, hd⟩ := (decode_reserved_iff_opcode cw).2 hopc
  exact ⟨⟨why, hd⟩, fun s rest hp => step_command_of_reserved hp hd⟩

/-- Settles O5: the reserved words by R65's form of the opcode byte, their step, their count, and that a step on a
command word responds with its reply, so that none is a no-operation. -/
theorem reservedWordsExactly : Obligations.ReservedWordsExactly := by
  refine ⟨decode_reserved_iff_rsv, fun cw why s rest hd hp => step_command_of_reserved hp hd,
    fun n hn => count_reserved_opcodes hn, decode_of_opcode rfl rfl, fun s t cw rest hp h => ?_⟩
  obtain ⟨r, -, rfl⟩ := reply_of_step_command hp h
  exact ⟨r, rfl⟩

end Sys2Proof.Machine
end

section
/-! SUPPORT. The fixed-point integer of a word and its 64-bit two's complement (30_encoding.md R71,
41_semifloat_codec.md R101): the integer fits 27 bits, so its data is the sign extension of its 27-bit form. -/

namespace Sys2Proof.Machine

/-- The sign bit as a factor: the fixed-point integer is the sign times the shifted mantissa. -/
theorem sfToQ26_eq (w : Word) :
    sfToQ26 w = (-1) ^ (sfSign w).toNat * (((sfMan w).toNat : ℤ) * 2 ^ (sfExp w).toNat) := by
  unfold sfToQ26
  rcases BitVec.eq_zero_or_eq_one (sfSign w) with h | h <;> simp [h, Nat.shiftLeft_eq]

/-- The magnitude of the fixed-point integer is below `2^11 * 2^15`. -/
theorem sfToQ26_bounds (w : Word) : -(2 ^ 26) < sfToQ26 w ∧ sfToQ26 w < 2 ^ 26 := by
  have hmag : (sfMan w).toNat * 2 ^ (sfExp w).toNat < 2 ^ 11 * 2 ^ 15 :=
    Nat.mul_lt_mul_of_lt_of_le (sfMan w).isLt
      (Nat.pow_le_pow_right (by decide) (Nat.le_of_lt_succ (sfExp w).isLt)) (by decide)
  unfold sfToQ26
  rw [Nat.shiftLeft_eq]
  split_ifs <;> omega

/-- `q / 2^26` is the value of the pattern. -/
theorem sfToQ26_div_eq_sfValue (w : Word) : (sfToQ26 w : ℚ) / 2 ^ 26 = sfValue w := by
  have hpow : (2 : ℚ) ^ (((sfExp w).toNat : ℤ) - 15) = 2 ^ (sfExp w).toNat / 2 ^ 15 := by
    rw [zpow_sub₀ two_ne_zero, zpow_natCast]
    rfl
  rw [sfToQ26_eq, sfValue, hpow]
  push_cast
  ring

/-- A zero mantissa gives the integer 0, whatever the sign. -/
theorem sfToQ26_eq_zero {w : Word} (h : (sfMan w).toNat = 0) : sfToQ26 w = 0 := by
  simp [sfToQ26_eq, h]

/-- The fixed-point integer has an `n`-bit two's complement for every `n >= 27`. -/
theorem toInt_ofInt_sfToQ26 (w : Word) {n : Nat} (hn : 27 ≤ n) : (BitVec.ofInt n (sfToQ26 w)).toInt = sfToQ26 w := by
  obtain ⟨hlo, hhi⟩ := sfToQ26_bounds w
  have hpow : (2 : ℤ) ^ 26 ≤ 2 ^ (n - 1) := pow_le_pow_right₀ (by decide) (by omega)
  exact BitVec.toInt_ofInt_eq_self (by omega) (by omega) (by omega)

/-- The `Q26` data is the 27-bit two's complement of the integer, sign-extended. -/
theorem q26Data_eq_signExtend (w : Word) : q26Data w = (BitVec.ofInt 27 (sfToQ26 w)).signExtend 64 := by
  apply BitVec.eq_of_toInt_eq
  rw [BitVec.toInt_signExtend_of_le (by decide), toInt_ofInt_sfToQ26 w le_rfl]
  exact toInt_ofInt_sfToQ26 w (by decide)

/-- Bits 63:26 of the `Q26` data are all the sign bit of the 27-bit form. -/
theorem getLsbD_q26Data_of_ge (w : Word) {k : Nat} (hk : 26 ≤ k) (hk' : k < 64) :
    (q26Data w).getLsbD k = (BitVec.ofInt 27 (sfToQ26 w)).msb := by
  rw [q26Data_eq_signExtend, BitVec.getLsbD_signExtend, decide_eq_true hk', Bool.true_and]
  split_ifs with h
  · rw [BitVec.msb_eq_getLsbD_last, show k = 26 by omega]
  · rfl

/-- The low bits of a sign extension are the shorter sign extension. -/
theorem setWidth_signExtend_of_le {w v n : Nat} (x : BitVec w) (h : n ≤ v) :
    (x.signExtend v).setWidth n = x.signExtend n := by
  ext k hk
  simp [BitVec.getElem_setWidth, BitVec.getElem_signExtend, show k < v by omega]

/-- The low `n` bits of the `Q26` data, `n >= 27`, read as two's complement give the integer. -/
theorem toInt_setWidth_q26Data (w : Word) {n : Nat} (hn : 27 ≤ n) (hn' : n ≤ 64) :
    ((q26Data w).setWidth n).toInt = sfToQ26 w := by
  rw [q26Data_eq_signExtend, setWidth_signExtend_of_le _ hn', BitVec.toInt_signExtend_of_le hn,
    toInt_ofInt_sfToQ26 w le_rfl]

/-- Settles O37: the integer lies within 27 bits, and the data is its 27-bit two's complement sign-extended; a zero
mantissa gives the integer 0, which has one pattern. -/
theorem q26Format : Obligations.Q26Format := by
  intro w
  have htoInt : (q26Data w).toInt = sfToQ26 w := toInt_ofInt_sfToQ26 w (by decide)
  obtain ⟨hlo, hhi⟩ := sfToQ26_bounds w
  refine ⟨htoInt, hlo, hhi, ?_, fun k hk hk' => ?_, fun n => toInt_setWidth_q26Data w, fun hman => ?_⟩
  · rw [htoInt, sfToQ26_div_eq_sfValue]
  · rw [getLsbD_q26Data_of_ge w (by omega) hk', getLsbD_q26Data_of_ge w le_rfl (by decide)]
  · rw [q26Data, sfToQ26_eq_zero ((sfMan_toNat w).trans hman)]
    rfl

end Sys2Proof.Machine
end

section
/-! SUPPORT. The assembled word from its two bytes, as a bit vector and as a number (40_word_assembler.md R80). -/

namespace Sys2Proof.Machine

/-- In range, with both bytes written, the word has the byte at the lower offset in its high half. -/
theorem assemble_of_bytes {s : State} {off : Nat} {hi lo : Byte} (hr : off + 1 < s.len)
    (hhi : readByte s.buf off = some hi) (hlo : readByte s.buf (off + 1) = some lo) :
    assemble s off = .word (hi ++ lo) :=
  assemble_eq_word_iff.2 ⟨hr, readWord_eq_some_iff.2 ⟨hi, lo, hhi, hlo, rfl⟩⟩

/-- The low byte does not reach the bits of the high one, so the word is their sum at base 256. -/
theorem toNat_byte_append (hi lo : Byte) : (hi ++ lo).toNat = 256 * hi.toNat + lo.toNat := by
  rw [BitVec.toNat_append, shiftLeft_or_eq_add lo.isLt]
  omega

/-- Settles O13: the failed range check is `OutOfRange`; in range the word is the two bytes appended, whose number is
the disjunction and the sum. -/
theorem assembleBigEndian : Obligations.AssembleBigEndian := fun _ _ =>
  ⟨assemble_eq_outOfRange_iff.2, fun hi lo hr hhi hlo =>
    ⟨hi ++ lo, assemble_of_bytes hr hhi hlo, BitVec.toNat_append hi lo, toNat_byte_append hi lo⟩⟩

end Sys2Proof.Machine
end

section
/-! SUPPORT. The three fields of a word, and words packed from a sign, an exponent and a mantissa: the mask, the
partition and the field word (41_semifloat_codec.md R90, R91, R100). -/

namespace Sys2Proof.Machine

/-- Three fields or-ed at disjoint places are their sum. -/
theorem three_fields_eq_add {a b c i j : Nat} (hc : c < 2 ^ j) (hbc : b * 2 ^ j + c < 2 ^ i) :
    a <<< i ||| b <<< j ||| c = a * 2 ^ i + (b * 2 ^ j + c) := by
  rw [Nat.or_assoc, shiftLeft_or_eq_add hc, shiftLeft_or_eq_add hbc]

/-- Settles O26: the mask is the remainder modulo `2^16`, which a multiple of `2^16` does not change. -/
theorem maskKeepsLowWord : Obligations.MaskKeepsLowWord := by
  intro raw k
  refine ⟨?_, Nat.le_of_lt_succ (sfMask raw).isLt, BitVec.eq_of_toNat_eq ?_⟩
  · rw [sfMask_toNat]
    exact (Nat.and_two_pow_sub_one_eq_mod raw 16).symm
  · rw [sfMask_toNat, sfMask_toNat]
    exact Nat.add_mul_mod_self_right raw k (2 ^ 16)

theorem sfSign_eq_one_iff (w : Word) : sfSign w = 1#1 ↔ w.toNat / 2 ^ 15 = 1 := by
  rw [← BitVec.toNat_inj, sfSign_toNat]
  rfl

/-- The fields partition the word. -/
theorem toNat_eq_fields (w : Word) :
    w.toNat = (sfSign w).toNat <<< 15 ||| (sfExp w).toNat <<< 11 ||| (sfMan w).toNat := by
  have hexp := (sfExp w).isLt
  have hman := (sfMan w).isLt
  rw [three_fields_eq_add hman (by omega), sfSign_toNat, sfExp_toNat, sfMan_toNat]
  omega

/-- Settles O27: each field is a quotient and a remainder of the word, and its width bounds it. -/
theorem fieldsPartitionWord : Obligations.FieldsPartitionWord := by
  intro w
  have hexp := (sfExp w).isLt
  have hman : ((sfMan w).toNat : ℚ) ≤ 2047 := mod_cast Nat.le_of_lt_succ (sfMan w).isLt
  refine ⟨?_, ?_, ?_, toNat_eq_fields w, ?_, by omega, by omega, by positivity, by linarith⟩
  · rw [sfSign_toNat, Nat.shiftRight_eq_div_pow, Nat.and_two_pow_sub_one_eq_mod _ 1]
    omega
  · rw [sfExp_toNat, Nat.shiftRight_eq_div_pow]
    exact (Nat.and_two_pow_sub_one_eq_mod _ 4).symm
  · rw [sfMan_toNat]
    exact (Nat.and_two_pow_sub_one_eq_mod _ 11).symm
  · rcases BitVec.eq_zero_or_eq_one (sfSign w) with h | h <;> simp [h]

/-- The field word as a sum: `s` from bit 24, `e` from bit 16, `m` from bit 0. -/
theorem sfFields_toNat (w : Word) :
    (sfFields w).toNat = (sfSign w).toNat * 2 ^ 24 + ((sfExp w).toNat * 2 ^ 16 + (sfMan w).toNat) := by
  have hsign := (sfSign w).isLt
  have hexp := (sfExp w).isLt
  have hman := (sfMan w).isLt
  rw [sfFields, three_fields_eq_add (by omega) (by omega), BitVec.toNat_ofNat, Nat.mod_eq_of_lt (by omega)]

theorem sfFields_toNat_or (w : Word) :
    (sfFields w).toNat = (sfSign w).toNat <<< 24 ||| (sfExp w).toNat <<< 16 ||| (sfMan w).toNat := by
  have hexp := (sfExp w).isLt
  have hman := (sfMan w).isLt
  rw [sfFields_toNat, three_fields_eq_add (by omega) (by omega)]

/-- The field word as R100 packs it. -/
theorem sfFields_eq_append (w : Word) :
    sfFields w = (sfSign w ++ 0#4 ++ sfExp w ++ 0#5 ++ sfMan w).setWidth 64 := by
  apply BitVec.eq_of_toNat_eq
  rw [sfFields_toNat_or, BitVec.toNat_setWidth_of_le (by decide)]
  simp only [BitVec.toNat_append, Nat.shiftLeft_or_distrib, ← Nat.shiftLeft_add, BitVec.toNat_zero, Nat.or_zero]

theorem sfFields_sign (w : Word) : (sfFields w).extractLsb' 24 1 = sfSign w := by
  apply BitVec.eq_of_toNat_eq
  have hexp := (sfExp w).isLt
  have hman := (sfMan w).isLt
  have hsign := (sfSign w).isLt
  rw [BitVec.extractLsb'_toNat, Nat.shiftRight_eq_div_pow, sfFields_toNat]
  omega

theorem sfFields_exp (w : Word) : (sfFields w).extractLsb' 16 4 = sfExp w := by
  apply BitVec.eq_of_toNat_eq
  have hexp := (sfExp w).isLt
  have hman := (sfMan w).isLt
  rw [BitVec.extractLsb'_toNat, Nat.shiftRight_eq_div_pow, sfFields_toNat]
  omega

theorem sfFields_man (w : Word) : (sfFields w).extractLsb' 0 11 = sfMan w := by
  apply BitVec.eq_of_toNat_eq
  have hman := (sfMan w).isLt
  rw [BitVec.extractLsb'_toNat, Nat.shiftRight_zero, sfFields_toNat]
  omega

/-- The fields recovered from the field word are those of the word, which they determine. -/
theorem sfFields_injective {v w : Word} (h : sfFields v = sfFields w) : v = w := by
  apply BitVec.eq_of_toNat_eq
  rw [toNat_eq_fields v, toNat_eq_fields w, ← sfFields_sign v, ← sfFields_exp v, ← sfFields_man v, h, sfFields_sign,
    sfFields_exp, sfFields_man]

/-- Settles O35: the field word is its three fields at disjoint places, so each is read back from it, and the three
partition the word. -/
theorem fieldWordLayout : Obligations.FieldWordLayout := by
  refine ⟨fun w => ⟨sfFields_eq_append w, sfFields_toNat_or w, ?_⟩, fun v w => sfFields_injective⟩
  rw [sfFields_sign, sfFields_exp, sfFields_man]
  exact toNat_eq_fields w

end Sys2Proof.Machine
end

section
/-! SUPPORT. The binary64 pattern of a word as a sum of its three fields (41_semifloat_codec.md R96), and from it the
sign of a zero (R98). -/

namespace Sys2Proof.Machine

theorem msb_le_of_lt {m n : Nat} (hm : m ≠ 0) (h : m < 2 ^ (n + 1)) : msb m ≤ n :=
  Nat.le_of_lt_succ ((Nat.log2_lt hm).2 h)

/-- The exponent of the binary64 pattern of a nonzero mantissa lies within 997 to 1022. -/
theorem f64Exponent_bounds {m e : Nat} (hm : m ≠ 0) (hm' : m < 2 ^ 11) (he : e < 16) :
    997 ≤ f64Exponent m e ∧ f64Exponent m e ≤ 1022 := by
  have := msb_le_of_lt hm hm'
  unfold f64Exponent
  omega

/-- The mantissa without its leading 1 lies below the leading 1, and so do both after the shift to bit 52. -/
theorem f64Fraction_lt {m : Nat} (hm : m ≠ 0) (hm' : m < 2 ^ 11) : f64Fraction m < 2 ^ 52 := by
  have hmsb := msb_le_of_lt hm hm'
  obtain ⟨hlo, hhi⟩ := msb_spec hm
  have hrest : m - 2 ^ msb m < 2 ^ msb m := by omega
  calc f64Fraction m = (m - 2 ^ msb m) * 2 ^ (52 - msb m) := Nat.shiftLeft_eq ..
    _ < 2 ^ msb m * 2 ^ (52 - msb m) := Nat.mul_lt_mul_of_pos_right hrest (Nat.two_pow_pos _)
    _ = 2 ^ 52 := by rw [← Nat.pow_add, Nat.add_sub_cancel' (by omega)]

theorem sfToF64_toNat_of_man_eq_zero {w : Word} (h : (sfMan w).toNat = 0) :
    (sfToF64 w).toNat = (sfSign w).toNat * 2 ^ 63 := by
  have hsign := (sfSign w).isLt
  rw [sfToF64, if_pos h, BitVec.toNat_ofNat, Nat.shiftLeft_eq, Nat.mod_eq_of_lt (by omega)]

theorem sfToF64_toNat_of_man_ne_zero {w : Word} (h : (sfMan w).toNat ≠ 0) :
    (sfToF64 w).toNat = (sfSign w).toNat * 2 ^ 63 +
      (f64Exponent (sfMan w).toNat (sfExp w).toNat * 2 ^ 52 + f64Fraction (sfMan w).toNat) := by
  have hsign := (sfSign w).isLt
  have hfrac := f64Fraction_lt h (sfMan w).isLt
  obtain ⟨-, hexp⟩ := f64Exponent_bounds h (sfMan w).isLt (sfExp w).isLt
  rw [sfToF64, if_neg h, three_fields_eq_add hfrac (by omega), BitVec.toNat_ofNat, Nat.mod_eq_of_lt (by omega)]

/-- Below its sign bit the binary64 pattern is zero exactly for a zero mantissa: otherwise its exponent is not. -/
theorem sfToF64_toNat_mod_eq_zero_iff (w : Word) : (sfToF64 w).toNat % 2 ^ 63 = 0 ↔ (sfMan w).toNat = 0 := by
  by_cases h : (sfMan w).toNat = 0
  · rw [sfToF64_toNat_of_man_eq_zero h, Nat.mul_mod_left]
    exact iff_of_true rfl h
  · have hfrac := f64Fraction_lt h (sfMan w).isLt
    obtain ⟨hlo, hhi⟩ := f64Exponent_bounds h (sfMan w).isLt (sfExp w).isLt
    rw [sfToF64_toNat_of_man_ne_zero h]
    omega

/-- The sign bit of the binary64 pattern is the sign bit of the word. -/
theorem f64Sign_sfToF64 (w : Word) : f64Sign (sfToF64 w) = sfSign w := by
  apply BitVec.eq_of_toNat_eq
  have hsign := (sfSign w).isLt
  rw [f64Sign, BitVec.extractLsb'_toNat, Nat.shiftRight_eq_div_pow]
  by_cases h : (sfMan w).toNat = 0
  · rw [sfToF64_toNat_of_man_eq_zero h]
    omega
  · have hfrac := f64Fraction_lt h (sfMan w).isLt
    obtain ⟨-, hhi⟩ := f64Exponent_bounds h (sfMan w).isLt (sfExp w).isLt
    rw [sfToF64_toNat_of_man_ne_zero h]
    omega

/-- The pattern of sign `s`, exponent `e` and mantissa 0 gives the binary64 zero of sign `s`. -/
theorem sfToF64_of_zero_mantissa {s e n : Nat} (hs : s < 2) (he : e < 16) (hn : n = s * 2 ^ 15 + e * 2 ^ 11) :
    sfToF64 (BitVec.ofNat 16 n) = BitVec.ofNat 64 (s * 2 ^ 63) := by
  have hw : (BitVec.ofNat 16 n).toNat = n := (BitVec.toNat_ofNat n 16).trans (Nat.mod_eq_of_lt (by omega))
  have hman : (sfMan (BitVec.ofNat 16 n)).toNat = 0 := by rw [sfMan_toNat, hw]; omega
  apply BitVec.eq_of_toNat_eq
  rw [sfToF64_toNat_of_man_eq_zero hman, sfSign_toNat, hw, BitVec.toNat_ofNat]
  omega

/-- Settles O33: a zero mantissa leaves only the sign in the binary64 pattern; any other mantissa gives it an exponent
of at least 997. -/
theorem zeroKeepsItsSign : Obligations.ZeroKeepsItsSign := by
  refine ⟨fun e he => ⟨?_, ?_⟩, fun w => ?_, fun w => ?_⟩
  · exact sfToF64_of_zero_mantissa (s := 0) (by decide) he (by rw [Nat.shiftLeft_eq, Nat.zero_mul, Nat.zero_add])
  · have hlow : e <<< 11 < 2 ^ 15 := by rw [Nat.shiftLeft_eq]; omega
    have hsum : 0x8000 ||| e <<< 11 = 1 * 2 ^ 15 + e <<< 11 := shiftLeft_or_eq_add (a := 1) hlow
    exact sfToF64_of_zero_mantissa (s := 1) (by decide) he (by rw [hsum, Nat.shiftLeft_eq])
  · rw [f64Sign_sfToF64, sfSign_toNat]
  · rw [sfToF64_toNat_mod_eq_zero_iff, sfMan_toNat]

end Sys2Proof.Machine
end

section
/-! SUPPORT. The fixed-point integer in closed form, its extremes, and the scale it needs (41_semifloat_codec.md
R101). -/

namespace Sys2Proof.Machine

/-- The fixed-point integer in the bits of the word. -/
theorem sfToQ26_closed_form (w : Word) :
    sfToQ26 w = (if w.toNat / 2 ^ 15 = 1 then -1 else 1) *
      ((w.toNat % 2 ^ 11 * 2 ^ (w.toNat / 2 ^ 11 % 16) : Nat) : ℤ) := by
  simp only [sfToQ26, sfSign_eq_one_iff, Nat.shiftLeft_eq, sfMan_toNat, sfExp_toNat]
  split_ifs
  · rw [neg_one_mul]
  · rw [one_mul]

/-- The largest magnitude is `2047 * 2^15`. -/
theorem abs_sfToQ26_le (w : Word) : |sfToQ26 w| ≤ 67076096 := by
  have hmag : (sfMan w).toNat * 2 ^ (sfExp w).toNat ≤ 2047 * 2 ^ 15 :=
    Nat.mul_le_mul (Nat.le_of_lt_succ (sfMan w).isLt)
      (Nat.pow_le_pow_right (by decide) (Nat.le_of_lt_succ (sfExp w).isLt))
  rw [sfToQ26_eq, abs_mul, abs_neg_one_pow, one_mul, abs_of_nonneg (by positivity)]
  exact_mod_cast hmag

/-- The `Q26` data is `tc_64` of the integer, as a number. -/
theorem q26Data_toNat (w : Word) : ((q26Data w).toNat : ℤ) = sfToQ26 w % 2 ^ 64 := by
  rw [q26Data, BitVec.toNat_ofInt, Int.toNat_of_nonneg (Int.emod_nonneg _ (by decide))]
  rfl

/-- No other integer stands for the value of the pattern. -/
theorem eq_sfToQ26_of_div_eq_sfValue {w : Word} {q : ℤ} (h : (q : ℚ) / 2 ^ 26 = sfValue w) : q = sfToQ26 w := by
  rw [← sfToQ26_div_eq_sfValue, div_left_inj' (by positivity)] at h
  exact_mod_cast h

/-- With fewer than 26 fraction bits the least nonzero pattern `0x0001` is not an integer: scaled up to 26 bits it
would be even, and it is 1. -/
theorem div_two_pow_ne_sfValue_one {k : Nat} (hk : k < 26) (q : ℤ) : (q : ℚ) / 2 ^ k ≠ sfValue 0x0001#16 := by
  intro h
  have hscale : ((q * 2 ^ (26 - k) : ℤ) : ℚ) / 2 ^ 26 = (q : ℚ) / 2 ^ k := by
    push_cast
    rw [← pow_sub_mul_pow (2 : ℚ) hk.le, mul_comm (q : ℚ), mul_div_mul_left _ _ (by positivity)]
  have hone : q * 2 ^ (26 - k) = 1 := eq_sfToQ26_of_div_eq_sfValue (hscale.trans h)
  have heven : (2 : ℤ) ∣ q * 2 ^ (26 - k) := Dvd.dvd.mul_left (dvd_pow_self 2 (by omega)) q
  omega

/-- Settles O36: the closed form bounds the integer; the quotient by `2^26` is the pattern's value and determines it;
and `0x0001` needs all 26 fraction bits. -/
theorem q26IsExact : Obligations.Q26IsExact := by
  refine ⟨fun w => ?_, fun k hk => ⟨0x0001#16, div_two_pow_ne_sfValue_one hk⟩⟩
  obtain ⟨hlo, hhi⟩ := abs_le.1 (abs_sfToQ26_le w)
  exact ⟨sfToQ26_closed_form w, hlo, hhi, sfToQ26_div_eq_sfValue w, q26Data_toNat w,
    fun _ => eq_sfToQ26_of_div_eq_sfValue⟩

end Sys2Proof.Machine
end

section
/-! SUPPORT. The assemble-and-convert commands against the immediate ones (42_assemble_decode.md R123): a buffer
command whose data is the codec's of the assembled word, masked as an immediate pattern is. -/

namespace Sys2Proof.Machine

/-- In range, with both bytes written, assemble-and-convert is the immediate command on the assembled word. -/
theorem bufCommand_mask_eq_immCommand (f : Word → Data) {s : State} {off : Nat} {hi lo : Byte}
    (hr : off + 1 < s.len) (hhi : readByte s.buf off = some hi) (hlo : readByte s.buf (off + 1) = some lo) :
    bufCommand (fun w => f (sfMask w.toNat)) off s = immCommand f (256 * hi.toNat + lo.toNat) s := by
  rw [bufCommand, assemble_of_bytes hr hhi hlo, immCommand_eq, ← toNat_byte_append]

/-- The mask changes nothing in a word assembled from two bytes. -/
theorem sfMask_bytes_toNat (hi lo : Byte) :
    (sfMask (256 * hi.toNat + lo.toNat)).toNat = 256 * hi.toNat + lo.toNat := by
  rw [← toNat_byte_append, sfMask_word]

/-- A buffer command whose range check fails raises `OutOfRange`, whatever its data would be. -/
theorem bufCommand_of_not_inRange (f : Word → Data) {s : State} {off : Nat} (hr : ¬ off + 1 < s.len) :
    bufCommand f off s = .next (s.raise .outOfRange) := by
  rw [bufCommand, assemble_eq_outOfRange_iff.2 hr]

/-- The three assemble-and-convert commands are buffer commands. -/
theorem exec_assembleConvert {i : Instr} {off : Nat} (hi : i ∈ [.asmx off, .asmd off, .asmq off]) :
    ∃ f, ∀ s, exec i s = bufCommand f off s := by
  simp only [List.mem_cons, List.not_mem_nil, or_false] at hi
  rcases hi with rfl | rfl | rfl
  · exact ⟨fun w => sfFields (sfMask w.toNat), fun _ => rfl⟩
  · exact ⟨fun w => sfToF64 (sfMask w.toNat), fun _ => rfl⟩
  · exact ⟨fun w => q26Data (sfMask w.toNat), fun _ => rfl⟩

/-- No command raises a fault other than `OutOfRange`: `IllegalCommand` is the decoder's alone. -/
theorem exec_port_fault_eq_outOfRange {i : Instr} {s t : State} {c : FaultCode} (h : exec i s = .next t)
    (hp : t.port = some (.fault c)) : c = .outOfRange := by
  rcases exec_next h with ⟨d, rfl⟩ | ⟨rfl, -, -⟩
  · cases hp
  · cases hp
    rfl

/-- Settles O23: the word's bytes fix both the masked word of the codec and the operand of the immediate command; a
failed range check stops each of the three before the codec; and no command has another fault. -/
theorem compositionLaw : Obligations.CompositionLaw := by
  intro s off
  refine ⟨fun hi lo hr hhi hlo => ?_, fun hr i hi => ?_, fun t c i _ => exec_port_fault_eq_outOfRange⟩
  · exact ⟨bufCommand_mask_eq_immCommand sfFields hr hhi hlo, bufCommand_mask_eq_immCommand sfToF64 hr hhi hlo,
      bufCommand_mask_eq_immCommand q26Data hr hhi hlo, sfMask_bytes_toNat hi lo⟩
  · obtain ⟨f, hf⟩ := exec_assembleConvert hi
    exact (hf s).trans (bufCommand_of_not_inRange f hr)

end Sys2Proof.Machine
end

section
/-! SUPPORT. The two faults of the block and the status of its responses (60_exceptions.md R131, R132, R134): the
decoder alone raises `IllegalCommand`, the range check of the four buffer commands alone raises `OutOfRange`. -/

namespace Sys2Proof.Machine

/-- The four commands with a byte offset, `ASM` among them, are buffer commands. -/
theorem exec_bufferForm {i : Instr} {off : Nat} (hi : i ∈ [.asm off, .asmx off, .asmd off, .asmq off]) :
    ∃ f, ∀ s, exec i s = bufCommand f off s := by
  rcases List.mem_cons.1 hi with rfl | hi
  · exact ⟨wordData, fun _ => rfl⟩
  · exact exec_assembleConvert hi

/-- A command that answers `OutOfRange` is one of the four buffer commands, and its range check failed. -/
theorem exec_port_outOfRange {i : Instr} {s t : State} (h : exec i s = .next t)
    (hp : t.port = some (.fault .outOfRange)) :
    ∃ off, i ∈ [.asm off, .asmx off, .asmd off, .asmq off] ∧ s.len ≤ off + 1 := by
  rcases exec_next h with ⟨d, rfl⟩ | ⟨-, hr, hi⟩
  · cases hp
  · exact ⟨i.operand, hi, Nat.not_lt.1 hr⟩

/-- A command word answered with `IllegalCommand` is reserved: a word that decodes runs a command, whose only fault
is `OutOfRange`. -/
theorem decode_reserved_of_port_illegalCommand {s t : State} {cw : CommandWord} {rest : List HostAction}
    (hp : s.pending = .command cw :: rest) (h : step s = .next t) (ht : t.port = some (.fault .illegalCommand)) :
    ∃ why, decode cw = .reserved why := by
  cases hd : decode cw with
  | instr i => cases exec_port_fault_eq_outOfRange ((step_command_of_instr hp hd).symm.trans h) ht
  | reserved why => exact ⟨why, rfl⟩

/-- Status 3 is the code of no response. -/
theorem Response.status_ne_three (r : Response) : r.status ≠ 3#2 := by
  cases r with
  | ok d => exact (by decide : (0#2 : BitVec 2) ≠ 3#2)
  | fault c => cases c <;> decide

/-- Settles O10: the reserved words are those the decoder refuses; it raises `IllegalCommand` for each, and a word it
accepts runs a command, which never does. -/
theorem illegalCommandExactly : Obligations.IllegalCommandExactly := by
  refine ⟨fun s cw rest hp hcw => ?_, fun s t cw rest hp h ht => ?_, rfl⟩
  · obtain ⟨why, hd⟩ := (decode_reserved_iff_rsv cw).2 hcw
    exact step_command_of_reserved hp hd
  · exact (decode_reserved_iff_rsv cw).1 (decode_reserved_of_port_illegalCommand hp h ht)

/-- Settles O11: the four buffer commands share one range check, which raises `OutOfRange` when it fails; no other
path of a command raises it. -/
theorem outOfRangeExactly : Obligations.OutOfRangeExactly := by
  refine ⟨fun s off i hi hlen => ?_, fun s t i => exec_port_outOfRange, rfl⟩
  obtain ⟨f, hf⟩ := exec_bufferForm hi
  exact (hf s).trans (bufCommand_of_not_inRange f (Nat.not_lt.2 hlen))

/-- Settles O48: the code of each kind of response is its definition, and 3 is none of them. -/
theorem statusCodes : Obligations.StatusCodes :=
  ⟨fun _ => rfl, rfl, rfl, Response.status_ne_three⟩

end Sys2Proof.Machine
end

section
/-! SUPPORT. A step by the host's next action: one equation an action (70_reset_and_hazards.md R150 to R154, R159);
from them what a step leaves of `BUF` and `LEN`, and which steps are refused. -/

namespace Sys2Proof.Machine

theorem step_of_idle {s : State} (hp : s.pending = []) : step s = .next s := by
  simp only [step, nextAction, hp]

theorem step_reset {s : State} {rest : List HostAction} (hp : s.pending = .reset :: rest) :
    step s = .next (s.withPending rest).afterReset := by
  simp only [step, nextAction, hp, hostReset]

theorem step_abandoned {s : State} {cw : CommandWord} {rest : List HostAction}
    (hp : s.pending = .abandoned cw :: rest) : step s = .next (s.withPending rest).afterReset := by
  simp only [step, nextAction, hp, hostAbandon]

theorem step_writeByte {s : State} {i : Nat} {b : Byte} {rest : List HostAction}
    (hp : s.pending = .writeByte i b :: rest) : step s = hostWriteByte i b (s.withPending rest) := by
  simp only [step, nextAction, hp]

theorem step_setLen {s : State} {n : Nat} {rest : List HostAction} (hp : s.pending = .setLen n :: rest) :
    step s = hostSetLen n (s.withPending rest) := by
  simp only [step, nextAction, hp]

/-- Only a write outside the buffer is refused, under its own name. -/
theorem hostWriteByte_eq_refused_iff {s : State} {i : Nat} {b : Byte} {r : Refusal} :
    hostWriteByte i b s = .refused r ↔ r = .writeBeyondBuffer ∧ BUFSZ ≤ i := by
  unfold hostWriteByte
  split_ifs with hi
  · simp [hi]
  · simp [Nat.not_lt.1 hi, eq_comm]

/-- Only a length above the capacity is refused, under its own name. -/
theorem hostSetLen_eq_refused_iff {s : State} {n : Nat} {r : Refusal} :
    hostSetLen n s = .refused r ↔ r = .lenBeyondBuffer ∧ BUFSZ < n := by
  unfold hostSetLen
  split_ifs with hn
  · simp [hn]
  · simp [Nat.not_le.1 hn, eq_comm]

/-- No command word is refused: it is responded to, or misses a byte. -/
theorem step_command_not_refused {s : State} {cw : CommandWord} {rest : List HostAction} {r : Refusal}
    (hp : s.pending = .command cw :: rest) : step s ≠ .refused r := by
  rcases step_command_cases hp with ⟨_, -, hs⟩ | ⟨-, hs⟩ <;> simp [hs]

/-- The refused steps are the two host actions outside the contract. -/
theorem step_eq_refused_iff {s : State} {r : Refusal} :
    step s = .refused r ↔
      ∃ rest, (r = .writeBeyondBuffer ∧ ∃ i b, s.pending = .writeByte i b :: rest ∧ BUFSZ ≤ i) ∨
        (r = .lenBeyondBuffer ∧ ∃ n, s.pending = .setLen n :: rest ∧ BUFSZ < n) := by
  constructor
  · intro h
    cases hp : s.pending with
    | nil => cases (step_of_idle hp).symm.trans h
    | cons a rest =>
      refine ⟨rest, ?_⟩
      cases a with
      | reset => cases (step_reset hp).symm.trans h
      | abandoned cw => cases (step_abandoned hp).symm.trans h
      | writeByte i b =>
        obtain ⟨hr, hi⟩ := hostWriteByte_eq_refused_iff.1 ((step_writeByte hp).symm.trans h)
        exact .inl ⟨hr, i, b, rfl, hi⟩
      | setLen n =>
        obtain ⟨hr, hn⟩ := hostSetLen_eq_refused_iff.1 ((step_setLen hp).symm.trans h)
        exact .inr ⟨hr, n, rfl, hn⟩
      | command cw => exact absurd h (step_command_not_refused hp)
  · rintro ⟨rest, ⟨hr, i, b, hp, hi⟩ | ⟨hr, n, hp, hn⟩⟩
    · exact (step_writeByte hp).trans (hostWriteByte_eq_refused_iff.2 ⟨hr, hi⟩)
    · exact (step_setLen hp).trans (hostSetLen_eq_refused_iff.2 ⟨hr, hn⟩)

/-- Consecutive writes that start in the buffer and run past its end stop at the first index outside. -/
theorem run_writeActions_refused {s : State} {i : Nat} {bs : List Byte} {rest : List HostAction} (k : Nat)
    (hp : s.pending = writeActions i bs ++ rest) (hi : i ≤ BUFSZ) (hlen : BUFSZ < i + bs.length) :
    core.run (bs.length + k) s = .refused .writeBeyondBuffer := by
  induction bs generalizing s i with
  | nil => exact absurd hlen (Nat.not_lt.2 hi)
  | cons b bs ih =>
    have hstep := step_writeByte (b := b) hp
    rw [List.length_cons, Nat.succ_add]
    by_cases hin : i < BUFSZ
    · rw [hostWriteByte, if_pos hin] at hstep
      rw [List.length_cons] at hlen
      exact (run_succ_of_next hstep _).trans (ih rfl hin (by omega))
    · rw [hostWriteByte, if_neg hin] at hstep
      exact run_succ_of_refused hstep _

/-- A byte that a write makes readable is the byte written, at its index. -/
theorem eq_of_readByte_writeByte {m : Memory} {i j : Nat} {b c : Byte} (h : readByte (writeByte m j c) i = some b)
    (hm : readByte m i ≠ some b) : j = i ∧ c = b := by
  by_cases hij : i = j
  · subst hij
    rw [readByte_writeByte_same] at h
    exact ⟨rfl, Option.some.inj h⟩
  · exact absurd ((readByte_writeByte_other m c hij).symm.trans h) hm

/-- Everything a step can do to the buffer and the length: nothing, a reset, one byte, or a new length. -/
theorem step_buf_len_cases {s t : State} (h : step s = .next t) :
    (t.buf = s.buf ∧ t.len = s.len) ∨
    ∃ a rest, s.pending = a :: rest ∧
      (((a = .reset ∨ ∃ cw, a = .abandoned cw) ∧ t.buf = [] ∧ t.len = 0) ∨
       (∃ i b, a = .writeByte i b ∧ t.buf = writeByte s.buf i b ∧ t.len = s.len) ∨
       (∃ n, a = .setLen n ∧ t.buf = s.buf ∧ t.len = n)) := by
  rcases step_cases h with ⟨-, rfl⟩ | ⟨a, rest, hp, hreset | hwrite | hlen | hcommand | hreserved⟩
  · exact .inl ⟨rfl, rfl⟩
  · obtain ⟨ha, rfl⟩ := hreset
    exact .inr ⟨a, rest, hp, .inl ⟨ha, rfl, rfl⟩⟩
  · obtain ⟨i, b, ha, -, rfl⟩ := hwrite
    exact .inr ⟨a, rest, hp, .inr (.inl ⟨i, b, ha, rfl, rfl⟩)⟩
  · obtain ⟨n, ha, -, rfl⟩ := hlen
    exact .inr ⟨a, rest, hp, .inr (.inr ⟨n, ha, rfl, rfl⟩)⟩
  · obtain ⟨cw, i, -, -, he⟩ := hcommand
    rcases exec_next he with ⟨d, rfl⟩ | ⟨rfl, -⟩ <;> exact .inl ⟨rfl, rfl⟩
  · obtain ⟨cw, why, -, -, rfl⟩ := hreserved
    exact .inl ⟨rfl, rfl⟩

/-- The actions that can change the length. -/
theorem action_of_len_ne {s t : State} (h : step s = .next t) (hne : t.len ≠ s.len) :
    ∃ a rest, s.pending = a :: rest ∧
      (a = .reset ∨ (∃ cw, a = .abandoned cw) ∨ ∃ n, a = .setLen n ∧ t.len = n) := by
  rcases step_buf_len_cases h with ⟨-, hl⟩ | ⟨a, rest, hp, ⟨ha, -⟩ | ⟨i, b, -, -, hl⟩ | ⟨n, ha, -, hl⟩⟩
  · exact absurd hl hne
  · exact ⟨a, rest, hp, ha.imp_right .inl⟩
  · exact absurd hl hne
  · exact ⟨a, rest, hp, .inr (.inr ⟨n, ha, hl⟩)⟩

/-- The action that can give a byte of the buffer a value. -/
theorem action_of_new_byte {s t : State} {i : Nat} {b : Byte} (h : step s = .next t)
    (ht : readByte t.buf i = some b) (hs : readByte s.buf i ≠ some b) :
    ∃ rest, s.pending = .writeByte i b :: rest := by
  rcases step_buf_len_cases h with ⟨hb, -⟩ | ⟨a, rest, hp, ⟨-, hb, -⟩ | ⟨j, c, rfl, hb, -⟩ | ⟨n, -, hb, -⟩⟩ <;>
    rw [hb] at ht
  · exact absurd ht hs
  · cases ht
  · obtain ⟨rfl, rfl⟩ := eq_of_readByte_writeByte ht hs
    exact ⟨rest, hp⟩
  · exact absurd ht hs

/-- Settles O43: a step touches the buffer and the length only by a reset, a byte written or a length set; a command
only responds, with a fault as with data. -/
theorem onlyHostActionsChangeState : Obligations.OnlyHostActionsChangeState := by
  refine fun s t h => ⟨action_of_len_ne h, fun i b => action_of_new_byte h, fun cw rest c hp _ => ?_⟩
  obtain ⟨r, -, rfl⟩ := reply_of_step_command hp h
  exact ⟨rfl, rfl⟩

/-- Settles O53: each action is refused by its own bound alone, and the writes of a payload that does not fit reach
the end of the buffer before its length is set. -/
theorem outsideContractRefused : Obligations.OutsideContractRefused := by
  refine ⟨fun s r => step_eq_refused_iff, fun b => Nat.le_of_lt_succ b.isLt, fun s bs rest hp hlen => ?_⟩
  rw [loadActions, List.append_assoc] at hp
  exact run_writeActions_refused 1 hp (Nat.zero_le _) (by rwa [Nat.zero_add])

end Sys2Proof.Machine
end

section
/-! SUPPORT. The decoder and the encoder as inverses of each other (30_encoding.md R60 to R65, R73), and the opcode map
by its masks and its sub-fields. -/

namespace Sys2Proof.Machine

/-- The two fields of the word of a well-formed command, whatever the command. -/
theorem encode_fields {i : Instr} (h : i.WellFormed) :
    opcField (encode i) = opcodeOf i ∧ opdField (encode i) = i.operand :=
  ⟨opcField_of_word (opcodeOf i) h, opdField_of_word (opcodeOf i) h⟩

/-- The opcode byte over an operand that fits, as a sum. -/
theorem encode_toNat {i : Instr} (h : i.WellFormed) :
    (encode i).toNat = (opcodeOf i).toNat * 2 ^ 24 + i.operand := by
  have hopc := (opcodeOf i).isLt
  rw [encode, shiftLeft_or_eq_add h, BitVec.toNat_ofNat, Nat.mod_eq_of_lt (by omega)]

/-- A word reads as a command exactly when its two fields are the command's opcode byte and its operand. -/
theorem decode_eq_instr_iff {cw : CommandWord} {i : Instr} :
    decode cw = .instr i ↔ cw.toNat / 2 ^ 24 = (opcodeOf i).toNat ∧ cw.toNat % 2 ^ 24 = i.operand := by
  constructor
  · intro h
    rw [← opcField_eq_iff, ← opdField_eq]
    unfold decode at h
    split_ifs at h <;> cases h <;> exact ⟨‹_›, rfl⟩
  · rintro ⟨hopc, hopd⟩
    exact decode_of_opcode hopc hopd

/-- Settles O2: the fields of the word of a command are its opcode byte and its operand, by which it decodes. -/
theorem decodeOfEncodeIsIdentity : Obligations.DecodeOfEncodeIsIdentity := by
  intro i h
  obtain ⟨hopc, hopd⟩ := encode_fields h
  exact decode_of_opcode (opcField_eq_iff.1 hopc) ((opdField_eq _).symm.trans hopd)

/-- Settles O3: the operand is a remainder modulo `2^24`, and the word is its two fields put together again. -/
theorem encodeOfDecodeIsIdentity : Obligations.EncodeOfDecodeIsIdentity := by
  intro cw i h
  obtain ⟨hopc, hopd⟩ := decode_eq_instr_iff.1 h
  have hwf : i.WellFormed := hopd.symm.trans_lt (Nat.mod_lt _ (by decide))
  refine ⟨hwf, BitVec.eq_of_toNat_eq ?_⟩
  rw [encode_toNat hwf, ← hopc, ← hopd, Nat.div_add_mod']

/-- The low mask of the opcode map leaves the operand field. -/
theorem and_operandMask_toNat (cw : CommandWord) : (cw &&& 0x00FFFFFF#32).toNat = cw.toNat % 2 ^ 24 := by
  rw [BitVec.toNat_and]
  exact Nat.and_two_pow_sub_one_eq_mod _ 24

/-- The high mask of the opcode map leaves the opcode byte in its place. -/
theorem and_opcodeMask_toNat (cw : CommandWord) : (cw &&& 0xFF000000#32).toNat = cw.toNat / 2 ^ 24 * 2 ^ 24 := by
  have hcw := cw.isLt
  have hmask : cw &&& 0xFF000000#32 = cw >>> 24 <<< 24 := by
    ext k hk
    interval_cases k <;> simp
  rw [hmask, BitVec.toNat_shiftLeft, BitVec.toNat_ushiftRight, Nat.shiftRight_eq_div_pow, Nat.shiftLeft_eq]
  omega

/-- A row of the opcode map: the masked word is the row's match value exactly when the word is the row's command on the
operand field. -/
theorem mask_match_iff (f : Nat → Instr) {c : BitVec 8} {row cw : CommandWord} (hopc : ∀ n, opcodeOf (f n) = c)
    (hopd : ∀ n, (f n).operand = n) (hrow : row.toNat = c.toNat * 2 ^ 24) :
    cw &&& 0xFF000000#32 = row ↔ decode cw = .instr (f (cw &&& 0x00FFFFFF#32).toNat) := by
  rw [decode_eq_instr_iff, hopc, hopd, and_operandMask_toNat, ← BitVec.toNat_inj, and_opcodeMask_toNat, hrow]
  omega

/-- Settles O6: one argument for the seven rows. -/
theorem maskAndMatchSelectCommand : Obligations.MaskAndMatchSelectCommand := fun _ =>
  ⟨mask_match_iff .asm (c := 0x00#8) (fun _ => rfl) (fun _ => rfl) rfl,
    mask_match_iff .asmx (c := 0x01#8) (fun _ => rfl) (fun _ => rfl) rfl,
    mask_match_iff .asmd (c := 0x02#8) (fun _ => rfl) (fun _ => rfl) rfl,
    mask_match_iff .asmq (c := 0x03#8) (fun _ => rfl) (fun _ => rfl) rfl,
    mask_match_iff .sfx (c := 0x05#8) (fun _ => rfl) (fun _ => rfl) rfl,
    mask_match_iff .sfd (c := 0x06#8) (fun _ => rfl) (fun _ => rfl) rfl,
    mask_match_iff .sfq (c := 0x07#8) (fun _ => rfl) (fun _ => rfl) rfl⟩

/-- A sub-field of the opcode byte is a field of the word. -/
theorem extract_opcField (cw : CommandWord) {k n : Nat} (h : k + n ≤ 8) :
    cw.extractLsb' (24 + k) n = (opcField cw).extractLsb' k n := by
  ext j hj
  simp [opcField, Nat.add_assoc, show k + j < 8 by omega]

/-- Settles O7: the sub-fields are those of the seven opcode bytes. -/
theorem opcodeSubFields : Obligations.OpcodeSubFields := by
  intro i h
  obtain ⟨hopc, -⟩ := encode_fields h
  rw [extract_opcField (encode i) (k := 3) (by decide), extract_opcField (encode i) (k := 2) (by decide),
    extract_opcField (encode i) (k := 0) (by decide), hopc]
  cases i <;> simp [opcodeOf]

/-- Settles O1: each word by its two fields, or by its opcode byte alone. -/
theorem writtenWordsDecode : Obligations.WrittenWordsDecode := by
  unfold Obligations.WrittenWordsDecode
  decide

end Sys2Proof.Machine
end

section
/-! SUPPORT. The host's writes and lengths within the contract, the invariant of the state and the written payload under
each operation (10_state.md R24, R27, 20_memory.md R40, 70_reset_and_hazards.md R153, R154), and from them what every
step keeps and that an in-contract step completes. -/

namespace Sys2Proof.Machine

theorem step_writeByte_of_lt {s : State} {i : Nat} {b : Byte} {rest : List HostAction}
    (hp : s.pending = .writeByte i b :: rest) (hi : i < BUFSZ) :
    step s = .next ((s.withPending rest).withBuf (writeByte s.buf i b)) :=
  (step_writeByte hp).trans (if_pos hi)

theorem step_writeByte_of_ge {s : State} {i : Nat} {b : Byte} {rest : List HostAction}
    (hp : s.pending = .writeByte i b :: rest) (hi : BUFSZ ≤ i) : step s = .refused .writeBeyondBuffer :=
  (step_writeByte hp).trans (if_neg (Nat.not_lt.2 hi))

theorem step_setLen_of_le {s : State} {n : Nat} {rest : List HostAction} (hp : s.pending = .setLen n :: rest)
    (hn : n ≤ BUFSZ) : step s = .next ((s.withPending rest).withLen n) :=
  (step_setLen hp).trans (if_pos hn)

/-- Taking actions off the host's list keeps the invariant. -/
theorem State.Inv.withPending {s : State} (h : s.Inv) (p : List HostAction) : (s.withPending p).Inv :=
  ⟨h.canonical, h.inside, h.legalLen, h.portLast⟩

/-- A response put on the port is the last one returned. -/
theorem State.Inv.respond {s : State} (h : s.Inv) (r : Response) : (s.respond r).Inv where
  canonical := h.canonical
  inside := h.inside
  legalLen := h.legalLen
  portLast := by simp

/-- `RESET` clears all the invariant speaks of. -/
theorem State.inv_afterReset (s : State) : s.afterReset.Inv where
  canonical := Memory.wf_nil
  inside := nofun
  legalLen := Nat.zero_le _
  portLast := nofun

/-- A write inside the buffer keeps the invariant. -/
theorem State.Inv.withBuf_writeByte {s : State} (h : s.Inv) {i : Nat} (hi : i < BUFSZ) (b : Byte) :
    (s.withBuf (writeByte s.buf i b)).Inv where
  canonical := writeByte_wf i b h.canonical
  inside := writeByte_inside hi h.inside
  legalLen := h.legalLen
  portLast := nofun

/-- A length within the capacity keeps the invariant. -/
theorem State.Inv.withLen {s : State} (h : s.Inv) {n : Nat} (hn : n ≤ BUFSZ) : (s.withLen n).Inv where
  canonical := h.canonical
  inside := h.inside
  legalLen := hn
  portLast := nofun

/-- A command that answers only responds, with data or with a fault. -/
theorem exec_next_respond {i : Instr} {s t : State} (h : exec i s = .next t) : ∃ r, t = s.respond r := by
  rcases exec_next h with ⟨d, ht⟩ | ⟨ht, -⟩
  · exact ⟨_, ht⟩
  · exact ⟨_, ht⟩

/-- Settles O44: each thing a step can do keeps the invariant. -/
theorem stepKeepsInvariant : Obligations.StepKeepsInvariant := by
  intro s t hinv h
  rcases step_cases h with ⟨-, rfl⟩ | ⟨a, rest, -, hreset | hwrite | hlen | hcommand | hreserved⟩
  · exact hinv
  · obtain ⟨-, rfl⟩ := hreset
    exact State.inv_afterReset _
  · obtain ⟨i, b, -, hi, rfl⟩ := hwrite
    exact (hinv.withPending rest).withBuf_writeByte hi b
  · obtain ⟨n, -, hn, rfl⟩ := hlen
    exact (hinv.withPending rest).withLen hn
  · obtain ⟨cw, i, -, -, he⟩ := hcommand
    obtain ⟨r, rfl⟩ := exec_next_respond he
    exact (hinv.withPending rest).respond r
  · obtain ⟨cw, why, -, -, rfl⟩ := hreserved
    exact (hinv.withPending rest).respond _

/-- The empty payload is written. -/
theorem State.payloadWritten_afterReset (s : State) : s.afterReset.PayloadWritten := fun _ hi =>
  absurd hi (Nat.not_lt_zero _)

/-- Settles O45: reset is the state `RESET` leaves of itself. -/
theorem resetMeetsInvariant : Obligations.ResetMeetsInvariant :=
  ⟨State.inv_afterReset .reset, State.payloadWritten_afterReset .reset⟩

/-- Settles O49: the reset values are the definition's. -/
theorem resetState : Obligations.ResetState :=
  ⟨rfl, readByte_nil, rfl, rfl, rfl⟩

/-- A write takes no byte its value away. -/
theorem readByte_writeByte_isSome {m : Memory} {a : Nat} (h : (readByte m a).isSome = true) (i : Nat) (b : Byte) :
    (readByte (writeByte m i b) a).isSome = true := by
  by_cases ha : a = i
  · rw [ha, readByte_writeByte_same]
    rfl
  · rwa [readByte_writeByte_other m b ha]

/-- A command faults exactly where a buffer command in range misses one of its two bytes. -/
theorem exec_eq_fault_iff {s : State} {i : Instr} :
    exec i s = .fault .unwrittenByte ↔
      ∃ off, i ∈ [.asm off, .asmx off, .asmd off, .asmq off] ∧ off + 1 < s.len ∧
        (readByte s.buf off = none ∨ readByte s.buf (off + 1) = none) := by
  constructor
  · intro h
    rcases exec_form i with ⟨hi, f, hf⟩ | ⟨-, f, hf⟩
    · rcases bufCommand_cases f i.operand s with ⟨w, -, hb⟩ | ⟨-, hb⟩ | ⟨ha, -⟩
      · cases hb.symm.trans ((hf s).symm.trans h)
      · cases hb.symm.trans ((hf s).symm.trans h)
      · obtain ⟨hr, hw⟩ := assemble_eq_unwritten_iff.1 ha
        exact ⟨i.operand, hi, hr, readWord_eq_none_iff.1 hw⟩
    · cases (hf s).symm.trans h
  · rintro ⟨off, hi, hr, hmiss⟩
    obtain ⟨f, hf⟩ := exec_bufferForm hi
    rw [hf, bufCommand, assemble_eq_unwritten_iff.2 ⟨hr, readWord_eq_none_iff.2 hmiss⟩]

/-- Settles O24: the fault is the assembler's, in range with a byte missing. -/
theorem unwrittenByteFaultExactly : Obligations.UnwrittenByteFaultExactly := fun _ _ => exec_eq_fault_iff

/-- Over a written payload no command faults: the range check bounds both indices by the length. -/
theorem exec_ne_fault_of_payloadWritten {s : State} (hw : s.PayloadWritten) (i : Instr) :
    exec i s ≠ .fault .unwrittenByte := by
  intro h
  obtain ⟨off, -, hr, hmiss | hmiss⟩ := exec_eq_fault_iff.1 h
  · have := hw off (by omega)
    simp [hmiss] at this
  · have := hw (off + 1) hr
    simp [hmiss] at this

/-- Over a written payload every command word has a reply, which the step responds with. -/
theorem step_command_of_payloadWritten {s : State} {cw : CommandWord} {rest : List HostAction}
    (hw : s.PayloadWritten) (hp : s.pending = .command cw :: rest) :
    ∃ r, reply s.buf s.len cw = some r ∧ step s = .next ((s.withPending rest).respond r) := by
  rcases step_command_cases hp with hreply | ⟨-, hfault⟩
  · exact hreply
  · cases hd : decode cw with
    | instr i =>
      have hexec := (step_command_of_instr hp hd).symm.trans hfault
      exact absurd hexec (exec_ne_fault_of_payloadWritten (s := s.withPending rest) hw i)
    | reserved why => cases (step_command_of_reserved hp hd).symm.trans hfault

/-- An in-contract step over a written payload answers a next state, whose payload is written. -/
theorem step_completes_of_inContract {s : State} (hw : s.PayloadWritten)
    (hc : ∀ a rest, s.pending = a :: rest → s.InContract a) : ∃ t, step s = .next t ∧ t.PayloadWritten := by
  cases hp : s.pending with
  | nil => exact ⟨s, step_of_idle hp, hw⟩
  | cons a rest =>
    have ha := hc a rest hp
    cases a with
    | reset => exact ⟨_, step_reset hp, State.payloadWritten_afterReset _⟩
    | abandoned cw => exact ⟨_, step_abandoned hp, State.payloadWritten_afterReset _⟩
    | writeByte i b =>
      exact ⟨_, step_writeByte_of_lt hp ha, fun j hj => readByte_writeByte_isSome (hw j hj) i b⟩
    | setLen n =>
      obtain ⟨hn, hwritten⟩ := ha
      exact ⟨_, step_setLen_of_le hp hn, hwritten⟩
    | command cw =>
      obtain ⟨r, -, hs⟩ := step_command_of_payloadWritten hw hp
      exact ⟨_, hs, hw⟩

/-- Settles O46: the step completes by the contract, and the invariant is kept by O44. -/
theorem inContractStepCompletes : Obligations.InContractStepCompletes := by
  intro s hinv hw hc
  obtain ⟨t, hs, ht⟩ := step_completes_of_inContract hw hc
  exact ⟨t, hs, stepKeepsInvariant s t hinv hs, ht⟩

end Sys2Proof.Machine
end

section
/-! SUPPORT. A step on a command word, alone and in a run: its frame, its one response, and what that depends on
(00_scope.md R10, 10_state.md section 2, 20_memory.md R41 and section 6, 60_exceptions.md sections 3 and 4). -/

namespace Sys2Proof.Machine

/-- A table word reads as the command its command word decodes to. -/
theorem decode_of_decodeTableWord {nbits w : Nat} {i : Instr} (h : decodeTableWord nbits w = some i) :
    decode (BitVec.ofNat 32 (w % 2 ^ nbits)) = .instr i := by
  unfold decodeTableWord at h
  split_ifs at h
  cases hd : decode (BitVec.ofNat 32 (w % 2 ^ nbits)) with
  | instr j =>
    rw [hd] at h
    cases h
    rfl
  | reserved why =>
    rw [hd] at h
    cases h

/-- Settles O8: the step on a word that decodes, for a host's word and for a table word put in front. -/
theorem stepRunsDecodedCommand : Obligations.StepRunsDecodedCommand :=
  ⟨fun _ _ _ _ hp hd => step_command_of_instr hp hd,
    fun s nbits w _ h => step_command_of_instr (State.withFetchWord_pending s nbits w) (decode_of_decodeTableWord h)⟩

/-- Settles O9: by induction on the number of steps, each of which answers the same state. -/
theorem idleRunKeepsState : Obligations.IdleRunKeepsState := by
  intro s k hp
  induction k with
  | zero => rfl
  | succ k ih => exact (run_succ_of_next (step_of_idle hp) k).trans ih

/-- Settles O25: a command only responds, and `IllegalCommand` is no response of a command. -/
theorem commandFrame : Obligations.CommandFrame := by
  intro s t i h
  obtain ⟨r, rfl⟩ := exec_next_respond h
  refine ⟨r, rfl, rfl, ?_, rfl, rfl, rfl, fun _ => rfl⟩
  rintro rfl
  cases exec_port_fault_eq_outOfRange h rfl

/-- A command word answered with `OutOfRange` decodes to a buffer command whose range check fails. -/
theorem decode_of_port_outOfRange {s t : State} {cw : CommandWord} {rest : List HostAction}
    (hp : s.pending = .command cw :: rest) (h : step s = .next t) (ht : t.port = some (.fault .outOfRange)) :
    ∃ off, decode cw ∈ [.instr (.asm off), .instr (.asmx off), .instr (.asmd off), .instr (.asmq off)] ∧
      s.len ≤ off + 1 := by
  cases hd : decode cw with
  | instr i =>
    obtain ⟨off, hi, hlen⟩ := exec_port_outOfRange ((step_command_of_instr hp hd).symm.trans h) ht
    exact ⟨off, List.mem_map_of_mem (f := Decoded.instr) hi, hlen⟩
  | reserved why =>
    cases (step_command_of_reserved hp hd).symm.trans h
    cases ht

/-- Settles O12: the one response is the reply; the decoder answers a reserved word before any range check. -/
theorem faultPriority : Obligations.FaultPriority := by
  intro s t cw rest hp h
  obtain ⟨r, -, rfl⟩ := reply_of_step_command hp h
  refine ⟨r, rfl, rfl, ?_, fun hr => decode_of_port_outOfRange hp h (congrArg some hr)⟩
  rintro ⟨why, hd⟩
  cases (step_command_of_reserved hp hd).symm.trans h
  rfl

/-- A command word without a reply is the model's fault. -/
theorem step_command_of_no_reply {s : State} {cw : CommandWord} {rest : List HostAction}
    (hp : s.pending = .command cw :: rest) (hr : reply s.buf s.len cw = none) : step s = .fault .unwrittenByte := by
  rcases step_command_cases hp with ⟨r, hr', -⟩ | ⟨-, hs⟩
  · cases hr'.symm.trans hr
  · exact hs

/-- A command word that faults has no reply, so it faults in every state with the same buffer and length. -/
theorem step_command_fault_of_fault {s t : State} {cw : CommandWord} {rest rest' : List HostAction} {f : Fault}
    (hp : s.pending = .command cw :: rest) (hp' : t.pending = .command cw :: rest') (hb : s.buf = t.buf)
    (hl : s.len = t.len) (h : step s = .fault f) : step t = .fault f := by
  rcases step_command_cases hp with ⟨r, -, hs⟩ | ⟨hn, -⟩
  · cases hs.symm.trans h
  · cases f
    exact step_command_of_no_reply hp' (by rw [← hb, ← hl, hn])

/-- A command word that is answered gets the same response in every state with the same buffer and length. -/
theorem step_command_respond_of_next {s t s' : State} {cw : CommandWord} {rest rest' : List HostAction}
    (hp : s.pending = .command cw :: rest) (hp' : t.pending = .command cw :: rest') (hb : s.buf = t.buf)
    (hl : s.len = t.len) (h : step s = .next s') :
    ∃ r, s' = (s.withPending rest).respond r ∧ step t = .next ((t.withPending rest').respond r) := by
  obtain ⟨r, hr, hs⟩ := reply_of_step_command hp h
  exact ⟨r, hs, step_command_of_reply hp' (by rw [← hb, ← hl, hr])⟩

/-- Settles O39: both states give the reply of the one buffer and length, and responding writes neither. -/
theorem responseDependsOnBufAndLenOnly : Obligations.ResponseDependsOnBufAndLenOnly := by
  intro s t cw rest rest' hp hp' hb hl
  refine ⟨fun f => step_command_fault_of_fault hp hp' hb hl, fun s' h => ?_⟩
  obtain ⟨r, rfl, ht⟩ := step_command_respond_of_next hp hp' hb hl h
  exact ⟨_, r, ht, rfl, rfl, rfl, rfl, rfl, rfl, rfl, rfl⟩

/-- Settles O41: the faulting command only responded, so buffer and length are those of the state without it. -/
theorem faultLeavesNoTrace : Obligations.FaultLeavesNoTrace := by
  intro s t bad cw rest c hp h _
  obtain ⟨r, -, rfl⟩ := reply_of_step_command hp h
  refine ⟨fun f => step_command_fault_of_fault rfl rfl rfl rfl, fun u hu => ?_⟩
  obtain ⟨r', rfl, ht⟩ := step_command_respond_of_next
    (s := s.withPending (.command cw :: rest)) (t := (s.withPending (.command cw :: rest)).respond r)
    rfl rfl rfl rfl hu
  exact ⟨_, ht, rfl, rfl, rfl, rfl⟩

/-- A command treats two states alike in which the assembler gives the same for its operand. -/
theorem exec_alike_of_assemble_eq {i : Instr} {s t : State} (h : assemble s i.operand = assemble t i.operand) :
    (∃ r, exec i s = .next (s.respond r) ∧ exec i t = .next (t.respond r)) ∨
    (exec i s = .fault .unwrittenByte ∧ exec i t = .fault .unwrittenByte) := by
  rcases exec_form i with ⟨-, f, hf⟩ | ⟨-, f, hf⟩
  · rw [hf, hf]
    rcases bufCommand_cases f i.operand s with ⟨w, ha, hs⟩ | ⟨ha, hs⟩ | ⟨ha, hs⟩
    · exact .inl ⟨_, hs, by rw [bufCommand, ← h, ha]⟩
    · exact .inl ⟨_, hs, by rw [bufCommand, ← h, ha]; rfl⟩
    · exact .inr ⟨hs, by rw [bufCommand, ← h, ha]⟩
  · exact .inl ⟨_, hf s, hf t⟩

/-- Settles O42: in range, the assembler reads two indices below `LEN`; a reserved word reads none. -/
theorem bytesBeyondLenAreUnreadable : Obligations.BytesBeyondLenAreUnreadable := by
  intro m m' len cw hagree
  unfold reply
  cases hd : decode cw with
  | instr i =>
    rw [step_command_of_instr rfl hd, step_command_of_instr rfl hd]
    rcases exec_alike_of_assemble_eq (i := i)
      (s := State.withPending { State.reset with buf := m, len := len, pending := [.command cw] } [])
      (t := State.withPending { State.reset with buf := m', len := len, pending := [.command cw] } [])
      (assemble_congr rfl fun hr => ⟨hagree _ (Nat.lt_of_succ_lt hr), hagree _ hr⟩) with ⟨r, hs, ht⟩ | ⟨hs, ht⟩
    · simp only [hs, ht, State.respond_port]
    · simp only [hs, ht]
  | reserved why =>
    rw [step_command_of_reserved rfl hd, step_command_of_reserved rfl hd]
    rfl

/-- Settles O47: by induction on the commands; each responds with its reply and leaves buffer and length, so the next
one's reply is of the same buffer and length. -/
theorem responsesComeInOrder : Obligations.ResponsesComeInOrder := by
  intro s cws rest hw hp
  induction cws generalizing s with
  | nil => exact ⟨s, [], rfl, rfl, by simp, by simp, rfl, rfl, hp⟩
  | cons cw cws ih =>
    obtain ⟨r, hr, hs⟩ := step_command_of_payloadWritten hw hp
    obtain ⟨t, rs, hrun, hrs, hresp, hport, hbuf, hlen, hpend⟩ :=
      ih ((s.withPending (cws.map HostAction.command ++ rest)).respond r) hw rfl
    refine ⟨t, r :: rs, (run_succ_of_next hs _).trans hrun, ?_, ?_, ?_, hbuf, hlen, hpend⟩
    · rw [List.map_cons, List.map_cons, hr]
      exact congrArg _ hrs
    · simpa using hresp
    · rw [hport, List.getLast?_cons]
      cases rs.getLast? <;> rfl

/-- The three commands with an immediate pattern respond with data in every state. -/
theorem exec_immediateForm {i : Instr} {raw : Nat} (hi : i ∈ [.sfx raw, .sfd raw, .sfq raw]) (s : State) :
    ∃ d, exec i s = .next (s.respond (.ok d)) := by
  simp only [List.mem_cons, List.not_mem_nil, or_false] at hi
  rcases hi with rfl | rfl | rfl <;> exact ⟨_, rfl⟩

/-- A step on `RESET`, or on a command it overtakes, resets the block. -/
theorem step_of_reset_or_abandoned {s : State} {a : HostAction} {rest : List HostAction} (hp : s.pending = a :: rest)
    (ha : a = .reset ∨ ∃ cw, a = .abandoned cw) : step s = .next (s.withPending rest).afterReset := by
  rcases ha with rfl | ⟨cw, rfl⟩
  · exact step_reset hp
  · exact step_abandoned hp

/-- Settles O50: with `LEN` 0 every range check fails; the immediate commands read no state. -/
theorem afterReset : Obligations.AfterReset := by
  intro s a rest hp ha
  refine ⟨_, step_of_reset_or_abandoned hp ha, rfl, readByte_nil, rfl, rfl, rfl, fun off i hi => ?_, fun raw i hi =>
    exec_immediateForm hi _⟩
  obtain ⟨f, hf⟩ := exec_bufferForm hi
  exact (hf _).trans (bufCommand_of_not_inRange f (Nat.not_lt_zero _))

end Sys2Proof.Machine
end

section
/-! SUPPORT. What the host's writes and lengths do, alone and in a run, and what the host keeps (00_scope.md R13,
70_reset_and_hazards.md R153, R158). -/

namespace Sys2Proof.Machine

/-- Settles O51: within the contract the step writes the byte, and a read after it gives it at its index alone. -/
theorem hostWriteByteEffect : Obligations.HostWriteByteEffect := fun s i b _ hp hi =>
  ⟨_, step_writeByte_of_lt hp hi, readByte_writeByte_same s.buf i b, fun _ => readByte_writeByte_other s.buf b,
    rfl, rfl, rfl, rfl⟩

/-- Settles O52: within the contract the step replaces the length and leaves the buffer. -/
theorem hostSetLenEffect : Obligations.HostSetLenEffect := fun _ _ _ hp hn =>
  ⟨_, step_setLen_of_le hp hn, rfl, fun _ => rfl, rfl, rfl⟩

/-- The buffer after consecutive writes from an index on. -/
def writeBytes : Memory → Nat → List Byte → Memory
  | m, _, [] => m
  | m, i, b :: bs => writeBytes (writeByte m i b) (i + 1) bs

/-- Consecutive writes leave every index below and above them alone. -/
theorem readByte_writeBytes_outside (m : Memory) {i j : Nat} {bs : List Byte} (h : j < i ∨ i + bs.length ≤ j) :
    readByte (writeBytes m i bs) j = readByte m j := by
  induction bs generalizing m i with
  | nil => rfl
  | cons b bs ih =>
    rw [List.length_cons] at h
    rw [writeBytes, ih _ (by omega), readByte_writeByte_other m b (by omega)]

/-- Consecutive writes put each byte at its index. -/
theorem readByte_writeBytes_inside (m : Memory) (i : Nat) {k : Nat} {bs : List Byte} (h : k < bs.length) :
    readByte (writeBytes m i bs) (i + k) = bs[k]? := by
  induction bs generalizing m i k with
  | nil => exact absurd h (Nat.not_lt_zero k)
  | cons b bs ih =>
    rw [writeBytes]
    cases k with
    | zero => rw [readByte_writeBytes_outside _ (by omega), Nat.add_zero, readByte_writeByte_same]; rfl
    | succ k =>
      rw [show i + (k + 1) = i + 1 + k by omega, ih _ _ (Nat.lt_of_succ_lt_succ h), List.getElem?_cons_succ]

/-- Consecutive writes within the buffer complete; they touch the buffer, the port and nothing else. -/
theorem run_writeActions {s : State} {i : Nat} {bs : List Byte} {rest : List HostAction}
    (hp : s.pending = writeActions i bs ++ rest) (hlen : i + bs.length ≤ BUFSZ) :
    ∃ t : State, core.run bs.length s = .next t ∧ t.buf = writeBytes s.buf i bs ∧ t.pending = rest ∧
      t.responses = s.responses := by
  induction bs generalizing s i with
  | nil => exact ⟨s, rfl, rfl, hp, rfl⟩
  | cons b bs ih =>
    rw [List.length_cons] at hlen
    have hstep := step_writeByte_of_lt (b := b) hp (by omega)
    obtain ⟨t, hrun, hbuf, hpend, hresp⟩ :=
      ih (s := (s.withPending _).withBuf (writeByte s.buf i b)) (i := i + 1) rfl (by omega)
    exact ⟨t, (run_succ_of_next hstep _).trans hrun, hbuf, hpend, hresp⟩

/-- Settles O54: the writes of the payload complete, and then the length is set over them. -/
theorem loadPutsPayload : Obligations.LoadPutsPayload := by
  intro s bs rest hp hlen
  rw [loadActions, List.append_assoc] at hp
  obtain ⟨t, hrun, hbuf, hpend, hresp⟩ := run_writeActions hp (by rwa [Nat.zero_add])
  have hset : core.run 1 t = .next ((t.withPending rest).withLen bs.length) :=
    run_succ_of_next (step_setLen_of_le hpend hlen) 0
  refine ⟨_, (run_add hrun 1).trans hset, rfl, fun i hi => ?_, fun i hi => ?_, rfl, hresp⟩
  · rw [State.withLen_buf, State.withPending_buf, hbuf, ← readByte_writeBytes_inside s.buf 0 hi, Nat.zero_add]
  · rw [State.withLen_buf, State.withPending_buf, hbuf, readByte_writeBytes_outside _ (by omega)]

/-- Writes to different indices commute: both orders give every read the same. -/
theorem writeByte_comm {m : Memory} (h : Memory.wf m) {i j : Nat} (hij : i ≠ j) (b c : Byte) :
    writeByte (writeByte m i b) j c = writeByte (writeByte m j c) i b := by
  refine Memory.ext_of_readByte (writeByte_wf j c (writeByte_wf i b h)) (writeByte_wf i b (writeByte_wf j c h))
    fun a => ?_
  by_cases hi : a = i
  · subst hi
    rw [readByte_writeByte_other _ c hij, readByte_writeByte_same, readByte_writeByte_same]
  · by_cases hj : a = j
    · subst hj
      rw [readByte_writeByte_same, readByte_writeByte_other _ b hi, readByte_writeByte_same]
    · rw [readByte_writeByte_other _ c hj, readByte_writeByte_other _ b hi, readByte_writeByte_other _ b hi,
        readByte_writeByte_other _ c hj]

/-- Two writes within the buffer complete. -/
theorem run_two_writes {s : State} {i j : Nat} {b c : Byte} {rest : List HostAction}
    (hp : s.pending = .writeByte i b :: .writeByte j c :: rest) (hi : i < BUFSZ) (hj : j < BUFSZ) :
    core.run 2 s = .next ((s.withPending rest).withBuf (writeByte (writeByte s.buf i b) j c)) :=
  (run_succ_of_next (step_writeByte_of_lt hp hi) 1).trans (run_succ_of_next (step_writeByte_of_lt rfl hj) 0)

/-- Two writes of which one lies outside the buffer are refused, at the first or at the second. -/
theorem run_two_writes_refused {s : State} {i j : Nat} {b c : Byte} {rest : List HostAction}
    (hp : s.pending = .writeByte i b :: .writeByte j c :: rest) (h : BUFSZ ≤ i ∨ BUFSZ ≤ j) :
    core.run 2 s = .refused .writeBeyondBuffer := by
  rcases Nat.lt_or_ge i BUFSZ with hi | hi
  · have hj := h.resolve_left (Nat.not_le.2 hi)
    exact (run_succ_of_next (step_writeByte_of_lt hp hi) 1).trans (run_succ_of_refused (step_writeByte_of_ge rfl hj) 0)
  · exact run_succ_of_refused (step_writeByte_of_ge hp hi) 1

/-- Settles O55: inside the buffer the two writes commute; otherwise both orders are refused by the one name. -/
theorem writesInAnyOrder : Obligations.WritesInAnyOrder := by
  intro s i j b c rest hinv hij
  by_cases h : i < BUFSZ ∧ j < BUFSZ
  · rw [run_two_writes rfl h.1 h.2, run_two_writes rfl h.2 h.1, writeByte_comm hinv.canonical hij]
    rfl
  · have hout : BUFSZ ≤ i ∨ BUFSZ ≤ j := by omega
    rw [run_two_writes_refused rfl hout, run_two_writes_refused rfl hout.symm]

/-- Status 0 is that of a response with data. -/
theorem Response.status_eq_zero_iff {r : Response} : r.status = 0#2 ↔ r ∈ Set.range Response.ok := by
  cases r with
  | ok d => exact iff_of_true rfl ⟨d, rfl⟩
  | fault c => cases c <;> simp [Response.status, FaultCode.status]

theorem hostRecord_ok_cons (d : Data) (rs : List Response) :
    hostRecord (.ok d :: rs) = (hostRecord rs).map (d :: ·) := by
  rw [hostRecord]
  cases hostRecord rs <;> rfl

/-- The host keeps a list of data exactly when the responses are those data, in order. -/
theorem hostRecord_eq_some_iff {rs : List Response} {ds : List Data} :
    hostRecord rs = some ds ↔ rs = ds.map Response.ok := by
  induction rs generalizing ds with
  | nil => cases ds <;> simp [hostRecord]
  | cons r rs ih =>
    cases r with
    | ok d => cases ds <;> simp [hostRecord_ok_cons, ih, and_comm]
    | fault c => cases ds <;> simp [hostRecord, Response.usableData]

/-- Settles O56: what the host keeps are the data of responses that all have status 0. -/
theorem hostKeepsNothingAfterFault : Obligations.HostKeepsNothingAfterFault := by
  refine fun rs => ⟨fun ⟨r, hr, hstatus⟩ => ?_, fun hall => ?_⟩
  · refine Option.eq_none_iff_forall_ne_some.2 fun ds hds => hstatus ?_
    rw [hostRecord_eq_some_iff.1 hds] at hr
    obtain ⟨d, -, hd⟩ := List.mem_map.1 hr
    exact Response.status_eq_zero_iff.2 ⟨d, hd⟩
  · obtain ⟨ds, hds⟩ : rs ∈ Set.range (List.map Response.ok) := by
      rw [Set.range_list_map]
      exact fun r hr => Response.status_eq_zero_iff.1 (hall r hr)
    exact ⟨ds, hostRecord_eq_some_iff.2 hds.symm, hds.symm⟩

end Sys2Proof.Machine
end

section
/-! SUPPORT. The word read through the byte mux, the bytes of overlapping words, and the `WORD` and `FIELDS` results
in the bits of the operand or of the two bytes (20_memory.md section 2, 40_word_assembler.md R81, R83,
41_semifloat_codec.md R103, 42_assemble_decode.md R120). -/

namespace Sys2Proof.Machine

/-- Two bytes through the mux from a select bit at 0 are a word, the first in the high half. -/
theorem muxByte_muxByte (latch hi lo : Byte) :
    (muxByte (muxByte { latch := latch, select := 0#1 } hi).1 lo).2 = some (hi ++ lo) := rfl

/-- Settles O15: where both bytes have a value the mux puts them together as `MemRead` does. -/
theorem byteMuxGivesTheWord : Obligations.ByteMuxGivesTheWord := by
  intro latch m off
  simp only [serialWord, readWord, muxByte_muxByte]
  cases readByte m off <;> cases readByte m (off + 1) <;> rfl

/-- An assembled word's halves are the bytes at its offset and the next. -/
theorem bytes_of_assemble {s : State} {off : Nat} {w : Word} (h : assemble s off = .word w) :
    readByte s.buf off = some (w.extractLsb' 8 8) ∧ readByte s.buf (off + 1) = some (w.extractLsb' 0 8) := by
  obtain ⟨-, hread⟩ := assemble_eq_word_iff.1 h
  obtain ⟨hi, lo, hhi, hlo, rfl⟩ := readWord_eq_some_iff.1 hread
  rw [BitVec.extractLsb'_append_eq_left, BitVec.extractLsb'_append_eq_right]
  exact ⟨hhi, hlo⟩

/-- Settles O14: the byte between is the low half of the one word and the high half of the other. -/
theorem overlappingWordsShareAByte : Obligations.OverlappingWordsShareAByte := by
  intro s off v w hv hw
  obtain ⟨hvhi, hvlo⟩ := bytes_of_assemble hv
  obtain ⟨hwhi, hwlo⟩ := bytes_of_assemble hw
  exact ⟨hvhi, hvlo, Option.some.inj (hvlo.symm.trans hwhi), hwlo⟩

/-- Settles O16: the data is the word itself. -/
theorem asmCompletes : Obligations.AsmCompletes := by
  intro s off hi lo hr hhi hlo
  refine ⟨wordData (hi ++ lo), ?_, ?_⟩
  · show bufCommand wordData off s = _
    rw [bufCommand, assemble_of_bytes hr hhi hlo]
    rfl
  · rw [wordData, BitVec.toNat_setWidth_of_le (by decide), toNat_byte_append]

theorem sfSign_sfMask_toNat (raw : Nat) : (sfSign (sfMask raw)).toNat = raw / 2 ^ 15 % 2 := by
  rw [sfSign_toNat, sfMask_toNat]
  omega

theorem sfExp_sfMask_toNat (raw : Nat) : (sfExp (sfMask raw)).toNat = raw / 2 ^ 11 % 16 := by
  rw [sfExp_toNat, sfMask_toNat]
  omega

theorem sfMan_sfMask_toNat (raw : Nat) : (sfMan (sfMask raw)).toNat = raw % 2 ^ 11 := by
  rw [sfMan_toNat, sfMask_toNat]
  omega

/-- Settles O20: the field word of the masked pattern. -/
theorem sfxCompletes : Obligations.SfxCompletes := fun _ raw =>
  ⟨sfFields (sfMask raw), rfl, by
    rw [sfFields_toNat, sfSign_sfMask_toNat, sfExp_sfMask_toNat, sfMan_sfMask_toNat, Nat.add_assoc]⟩

/-- The fields of the number two bytes make, as fields of the bytes. -/
theorem fields_of_bytes (hi lo : Byte) :
    (256 * hi.toNat + lo.toNat) / 2 ^ 15 % 2 = hi.toNat / 128 ∧
    (256 * hi.toNat + lo.toNat) / 2 ^ 11 % 16 = hi.toNat / 8 % 16 ∧
    (256 * hi.toNat + lo.toNat) % 2 ^ 11 = hi.toNat % 8 * 256 + lo.toNat := by
  have hhi := hi.isLt
  have hlo := lo.isLt
  omega

/-- Settles O17: the composition law reduces `ASMX` to `SFX` on the number of the two bytes. -/
theorem asmxCompletes : Obligations.AsmxCompletes := by
  intro s off hi lo hr hhi hlo
  obtain ⟨hsign, hexp, hman⟩ := fields_of_bytes hi lo
  obtain ⟨hcomp, -⟩ := (compositionLaw s off).1 hi lo hr hhi hlo
  obtain ⟨d, hd, hval⟩ := sfxCompletes s (256 * hi.toNat + lo.toNat)
  refine ⟨d, hcomp.trans hd, ?_⟩
  rw [hval, hsign, hexp, hman]

/-- Settles O22: the two's complement of the masked pattern's integer reads back as the integer. -/
theorem sfqCompletes : Obligations.SfqCompletes := fun _ raw =>
  ⟨q26Data (sfMask raw), rfl, by
    rw [q26Data, toInt_ofInt_sfToQ26 _ (by decide), sfToQ26_eq, sfSign_sfMask_toNat, sfExp_sfMask_toNat,
      sfMan_sfMask_toNat, mul_assoc]⟩

/-- Settles O19: the composition law reduces `ASMQ` to `SFQ` on the number of the two bytes. -/
theorem asmqCompletes : Obligations.AsmqCompletes := by
  intro s off hi lo hr hhi hlo
  obtain ⟨hsign, hexp, hman⟩ := fields_of_bytes hi lo
  obtain ⟨-, -, hcomp, -⟩ := (compositionLaw s off).1 hi lo hr hhi hlo
  obtain ⟨d, hd, hval⟩ := sfqCompletes s (256 * hi.toNat + lo.toNat)
  refine ⟨d, hcomp.trans hd, ?_⟩
  rw [hval, hsign, hexp, hman]

end Sys2Proof.Machine
end

section
/-! SUPPORT. The exact value of a pattern through its magnitude `m * 2^e` in units of `2^-26`: when it is zero, how far
it reaches, what bit 15 does to it, and which patterns share it (41_semifloat_codec.md R93 to R95). -/

namespace Sys2Proof.Machine

/-- The value in the three fields, in units of `2^-26`. -/
theorem sfValue_eq (w : Word) :
    sfValue w = (-1) ^ (sfSign w).toNat * ((sfMan w).toNat : ℚ) * 2 ^ (((sfExp w).toNat : ℤ) - 26) := by
  have hscale : (2 : ℚ) ^ (((sfExp w).toNat : ℤ) - 15) = 2 ^ (((sfExp w).toNat : ℤ) - 26) * 2048 := by
    rw [show ((sfExp w).toNat : ℤ) - 15 = ((sfExp w).toNat : ℤ) - 26 + 11 by ring, zpow_add₀ two_ne_zero]
    norm_num
  rw [sfValue, hscale]
  ring

/-- The sign factor takes no part in whether the value is zero. -/
theorem sfValue_eq_zero_iff (w : Word) : sfValue w = 0 ↔ (sfMan w).toNat = 0 := by
  simp [sfValue_eq, zpow_ne_zero]

/-- The patterns with given exponent and mantissa are two, one of each sign. -/
theorem exp_man_iff {w : Word} {e m : Nat} (he : e < 16) (hm : m < 2 ^ 11) :
    ((sfExp w).toNat = e ∧ (sfMan w).toNat = m) ↔
      w.toNat = e * 2 ^ 11 + m ∨ w.toNat = 2 ^ 15 + e * 2 ^ 11 + m := by
  have hw := w.isLt
  rw [sfExp_toNat, sfMan_toNat]
  omega

/-- A negative pattern with a zero mantissa, as a sum. -/
theorem negative_zero_pattern {e : Nat} (he : e < 16) : 0x8000 ||| e <<< 11 = 2 ^ 15 + e * 2 ^ 11 := by
  have hlow : e <<< 11 < 2 ^ 15 := by rw [Nat.shiftLeft_eq]; omega
  rw [show 0x8000 = 1 <<< 15 from rfl, shiftLeft_or_eq_add hlow, one_mul, Nat.shiftLeft_eq]

/-- The patterns with a given exponent and a zero mantissa, as the spec writes them. -/
theorem exp_zero_man_iff {w : Word} {e : Nat} (he : e < 16) :
    ((sfExp w).toNat = e ∧ (sfMan w).toNat = 0) ↔ w.toNat = e <<< 11 ∨ w.toNat = 0x8000 ||| e <<< 11 := by
  rw [exp_man_iff he (by decide), negative_zero_pattern he, Nat.shiftLeft_eq, Nat.add_zero, Nat.add_zero]

/-- Settles O28: the two forms differ in the unit, and the mantissa alone decides whether the value is zero. -/
theorem valueOfPattern : Obligations.ValueOfPattern := by
  intro w
  have hzero : sfValue w = 0 ↔ w.toNat % 2 ^ 11 = 0 := by rw [sfValue_eq_zero_iff, sfMan_toNat]
  refine ⟨?_, ?_, hzero, ?_⟩
  · rw [sfValue, sfSign_toNat, sfExp_toNat, sfMan_toNat]
  · rw [sfValue_eq, sfSign_toNat, sfExp_toNat, sfMan_toNat]
  · rw [sfValue_eq_zero_iff]
    constructor
    · intro h
      have he := (sfExp w).isLt
      exact ⟨(sfExp w).toNat, he, (exp_zero_man_iff he).1 ⟨rfl, h⟩⟩
    · rintro ⟨e, he, hpat⟩
      exact ((exp_zero_man_iff he).2 hpat).2

theorem sfToQ26_natAbs (w : Word) : (sfToQ26 w).natAbs = (sfMan w).toNat * 2 ^ (sfExp w).toNat := by
  rw [sfToQ26_eq, Int.natAbs_mul, Int.natAbs_pow, Int.natAbs_neg, Int.natAbs_one, one_pow, one_mul]
  exact_mod_cast rfl

/-- The magnitude of the value, in units of `2^-26`. -/
theorem abs_sfValue (w : Word) :
    |sfValue w| = ((sfMan w).toNat * 2 ^ (sfExp w).toNat : Nat) / 2 ^ 26 := by
  rw [← sfToQ26_div_eq_sfValue, abs_div, abs_of_pos (by positivity : (0 : ℚ) < 2 ^ 26), ← sfToQ26_natAbs,
    Nat.cast_natAbs, Int.cast_abs]

theorem sfMan_flip (w : Word) : sfMan (w ^^^ 0x8000#16) = sfMan w := by
  rw [sfMan, BitVec.extractLsb'_xor]
  exact BitVec.xor_zero

theorem sfExp_flip (w : Word) : sfExp (w ^^^ 0x8000#16) = sfExp w := by
  rw [sfExp, BitVec.extractLsb'_xor]
  exact BitVec.xor_zero

theorem sfSign_flip (w : Word) : sfSign (w ^^^ 0x8000#16) = sfSign w ^^^ 1#1 := by
  rw [sfSign, BitVec.extractLsb'_xor]
  rfl

/-- Flipping bit 15 negates the integer. -/
theorem sfToQ26_flip (w : Word) : sfToQ26 (w ^^^ 0x8000#16) = -sfToQ26 w := by
  rw [sfToQ26, sfToQ26, sfMan_flip, sfExp_flip, sfSign_flip]
  rcases BitVec.eq_zero_or_eq_one (sfSign w) with h | h <;> simp [h]

/-- Flipping bit 15 negates the value. -/
theorem sfValue_flip (w : Word) : sfValue (w ^^^ 0x8000#16) = -sfValue w := by
  rw [← sfToQ26_div_eq_sfValue, ← sfToQ26_div_eq_sfValue, sfToQ26_flip, Int.cast_neg, neg_div]

/-- The magnitude is the largest possible only where both the exponent and the mantissa are. -/
theorem magnitude_eq_max_iff {m e : Nat} (hm : m < 2 ^ 11) (he : e < 16) :
    m * 2 ^ e = 2047 * 2 ^ 15 ↔ e = 15 ∧ m = 2047 := by
  constructor
  · intro h
    have hexp : e = 15 := by
      by_contra hne
      have hpow : 2 ^ e ≤ 2 ^ 14 := Nat.pow_le_pow_right (by decide) (by omega)
      have := Nat.mul_le_mul (Nat.le_of_lt_succ hm) hpow
      omega
    subst hexp
    omega
  · rintro ⟨rfl, rfl⟩
    rfl

/-- The magnitude is one unit only for the mantissa 1 at the least exponent. -/
theorem magnitude_eq_one_iff {m e : Nat} : m * 2 ^ e = 1 ↔ e = 0 ∧ m = 1 := by
  rw [mul_eq_one, Nat.pow_eq_one, and_comm]
  simp

/-- Settles O29: the magnitude is a natural number of units `2^-26`, at most `2047 * 2^15` and at least 1 where it is
not zero. -/
theorem valueRange : Obligations.ValueRange := by
  intro w
  have hm := (sfMan w).isLt
  have he := (sfExp w).isLt
  refine ⟨?_, ?_, fun h => ?_, ?_, sfValue_flip w⟩
  · have hmax : (sfMan w).toNat * 2 ^ (sfExp w).toNat ≤ 2047 * 2 ^ 15 := Nat.mul_le_mul (by omega)
      (Nat.pow_le_pow_right (by decide) (by omega))
    rw [abs_sfValue, div_le_iff₀ (by positivity)]
    calc (((sfMan w).toNat * 2 ^ (sfExp w).toNat : Nat) : ℚ) ≤ (2047 * 2 ^ 15 : Nat) := mod_cast hmax
      _ = 2047 / 2048 * 2 ^ 26 := by norm_num
  · rw [abs_sfValue, div_eq_iff (by positivity), show (2047 / 2048 * 2 ^ 26 : ℚ) = (2047 * 2 ^ 15 : Nat) by norm_num,
      Nat.cast_inj, magnitude_eq_max_iff hm he, exp_man_iff (by decide) (by decide), ← BitVec.toNat_inj,
      ← BitVec.toNat_inj]
    rfl
  · have hman : (sfMan w).toNat ≠ 0 := mt (sfValue_eq_zero_iff w).2 h
    have hpos : 0 < (sfMan w).toNat * 2 ^ (sfExp w).toNat := by positivity
    rw [abs_sfValue]
    gcongr
    exact_mod_cast hpos
  · rw [abs_sfValue, div_left_inj' (by positivity), Nat.cast_eq_one, magnitude_eq_one_iff,
      exp_man_iff (by decide) (by decide), ← BitVec.toNat_inj, ← BitVec.toNat_inj]
    rfl

/-- The value of the pattern packed from a sign, an exponent and a mantissa. -/
theorem sfValue_packed {s e m : Nat} (hs : s < 2) (he : e < 16) (hm : m < 2 ^ 11) :
    sfValue (BitVec.ofNat 16 (s * 2 ^ 15 + e * 2 ^ 11 + m)) = (-1) ^ s * (m : ℚ) * 2 ^ ((e : ℤ) - 26) := by
  have hsign : (s * 2 ^ 15 + e * 2 ^ 11 + m) % 2 ^ 16 / 2 ^ 15 = s := by omega
  have hexp : (s * 2 ^ 15 + e * 2 ^ 11 + m) % 2 ^ 16 / 2 ^ 11 % 16 = e := by omega
  have hman : (s * 2 ^ 15 + e * 2 ^ 11 + m) % 2 ^ 16 % 2 ^ 11 = m := by omega
  rw [sfValue_eq, sfSign_toNat, sfExp_toNat, sfMan_toNat, BitVec.toNat_ofNat, hsign, hexp, hman]

/-- Settles O30: one more in the exponent is one doubling of the mantissa. -/
theorem patternsShareValues : Obligations.PatternsShareValues := by
  intro s e m hs he hm
  rw [sfValue_packed hs (by omega) (by omega), sfValue_packed hs (by omega) (by omega),
    show ((e + 1 : Nat) : ℤ) - 26 = (e : ℤ) - 26 + 1 by push_cast; ring, zpow_add_one₀ two_ne_zero]
  push_cast
  ring

end Sys2Proof.Machine
end

section
/-! SUPPORT. Binary64 zeros and normal numbers as a sign and a magnitude (30_encoding.md R72): what pattern stands for
what, that a magnitude has one pattern, and from it that the closed form of 41_semifloat_codec.md R96 is exact. -/

namespace Sys2Proof.Machine

/-- The pattern `d` is a binary64 zero or normal number of sign `s` and magnitude `v`. -/
def IsF64 (d : Data) (s : BitVec 1) (v : ℚ) : Prop :=
  ∃ n k, f64Parts d = some (s, n, k) ∧ (n : ℚ) * 2 ^ k = v

/-- A binary64 pattern is its three fields put together. -/
theorem f64_toNat_eq_fields (d : Data) :
    d.toNat = (f64Sign d).toNat * 2 ^ 63 + ((f64Exp d).toNat * 2 ^ 52 + (f64Frac d).toNat) := by
  have hd := d.isLt
  simp only [f64Sign, f64Exp, f64Frac, BitVec.extractLsb'_toNat, Nat.shiftRight_eq_div_pow]
  omega

/-- The three fields of a pattern given as their sum. -/
theorem f64_fields_of_toNat {d : Data} {s : BitVec 1} {e f : Nat} (he : e < 2 ^ 11) (hf : f < 2 ^ 52)
    (hd : d.toNat = s.toNat * 2 ^ 63 + (e * 2 ^ 52 + f)) :
    f64Sign d = s ∧ (f64Exp d).toNat = e ∧ (f64Frac d).toNat = f := by
  have hs := s.isLt
  refine ⟨BitVec.eq_of_toNat_eq ?_, ?_, ?_⟩ <;>
    simp only [f64Sign, f64Exp, f64Frac, BitVec.extractLsb'_toNat, Nat.shiftRight_eq_div_pow, hd] <;> omega

/-- A pattern has parts exactly where R72 gives it a value: it is a zero, or normal. -/
theorem f64Parts_eq_some_iff {d : Data} {s : BitVec 1} {n : Nat} {k : ℤ} :
    f64Parts d = some (s, n, k) ↔ f64Sign d = s ∧
      (((f64Exp d).toNat = 0 ∧ (f64Frac d).toNat = 0 ∧ n = 0 ∧ k = 0) ∨
       ((f64Exp d).toNat ≠ 0 ∧ (f64Exp d).toNat ≠ 2047 ∧ n = 2 ^ 52 + (f64Frac d).toNat ∧
          k = ((f64Exp d).toNat : ℤ) - 1075)) := by
  unfold f64Parts
  split_ifs with h0 hf h1 <;> grind

/-- The value of a pattern is its magnitude under its sign. -/
theorem f64Value_of_isF64 {d : Data} {s : BitVec 1} {v : ℚ} (h : IsF64 d s v) :
    f64Value d = some ((-1) ^ s.toNat * v) := by
  obtain ⟨n, k, hparts, rfl⟩ := h
  obtain ⟨rfl, ⟨he, hf, rfl, rfl⟩ | ⟨he, he', rfl, rfl⟩⟩ := f64Parts_eq_some_iff.1 hparts
  · simp [f64Value, he, hf]
  · have hscale : (2 : ℚ) ^ (((f64Exp d).toNat : ℤ) - 1023) = 2 ^ (((f64Exp d).toNat : ℤ) - 1075) * 2 ^ 52 := by
      rw [← zpow_natCast, ← zpow_add₀ two_ne_zero]
      congr 1
      push_cast
      ring
    rw [f64Value, if_neg he, if_neg he', hscale]
    congr 1
    push_cast
    field_simp
    norm_num

theorem f64_fields_of_zero {d : Data} {s : BitVec 1} (hd : d.toNat = s.toNat * 2 ^ 63) :
    f64Sign d = s ∧ (f64Exp d).toNat = 0 ∧ (f64Frac d).toNat = 0 :=
  f64_fields_of_toNat (e := 0) (f := 0) (by decide) (by decide) (by rw [hd, Nat.zero_mul, Nat.add_zero])

/-- A pattern with no bit but its sign is a zero. -/
theorem isF64_zero {d : Data} {s : BitVec 1} (hd : d.toNat = s.toNat * 2 ^ 63) : IsF64 d s 0 := by
  obtain ⟨hs, he, hf⟩ := f64_fields_of_zero hd
  exact ⟨0, 0, f64Parts_eq_some_iff.2 ⟨hs, .inl ⟨he, hf, rfl, rfl⟩⟩, by simp⟩

/-- A nonzero number shifted up until its leading 1 is bit 52. -/
theorem significand_bounds {n : Nat} (hn : n ≠ 0) (hp : msb n ≤ 52) :
    2 ^ 52 ≤ n * 2 ^ (52 - msb n) ∧ n * 2 ^ (52 - msb n) < 2 ^ 53 := by
  obtain ⟨hlo, hhi⟩ := msb_spec hn
  constructor
  · calc 2 ^ 52 = 2 ^ msb n * 2 ^ (52 - msb n) := by rw [← Nat.pow_add, Nat.add_sub_cancel' hp]
      _ ≤ n * 2 ^ (52 - msb n) := Nat.mul_le_mul_right _ hlo
  · calc n * 2 ^ (52 - msb n) < 2 ^ (msb n + 1) * 2 ^ (52 - msb n) := Nat.mul_lt_mul_of_pos_right hhi (Nat.two_pow_pos _)
      _ = 2 ^ 53 := by rw [← Nat.pow_add]; congr 1; omega

/-- The pattern of a nonzero number `n * 2^k` whose leading 1, shifted to bit 52, is left implicit. -/
theorem isF64_of_leading_one {d : Data} {s : BitVec 1} {n e : Nat} {k : ℤ} (hn : n ≠ 0) (hp : msb n ≤ 52)
    (hk : (e : ℤ) = msb n + k + 1023) (he : 1 ≤ e) (he' : e ≤ 2046)
    (hd : d.toNat = s.toNat * 2 ^ 63 + (e * 2 ^ 52 + (n * 2 ^ (52 - msb n) - 2 ^ 52))) : IsF64 d s (n * 2 ^ k) := by
  obtain ⟨hlo, hhi⟩ := significand_bounds hn hp
  obtain ⟨hs, hexp, hfrac⟩ := f64_fields_of_toNat (by omega) (by omega) hd
  refine ⟨2 ^ 52 + (f64Frac d).toNat, ((f64Exp d).toNat : ℤ) - 1075,
    f64Parts_eq_some_iff.2 ⟨hs, .inr ⟨by omega, by omega, rfl, rfl⟩⟩, ?_⟩
  have hk' : (52 - msb n : Nat) + (((f64Exp d).toNat : ℤ) - 1075) = k := by omega
  rw [hfrac, Nat.add_sub_cancel' hlo, ← hk', zpow_add₀ two_ne_zero, zpow_natCast]
  push_cast
  ring

/-- The fraction of R96 is the significand without its leading 1. -/
theorem f64Fraction_eq {m : Nat} (hp : msb m ≤ 52) : f64Fraction m = m * 2 ^ (52 - msb m) - 2 ^ 52 := by
  rw [f64Fraction, Nat.shiftLeft_eq, Nat.sub_mul, ← Nat.pow_add, Nat.add_sub_cancel' hp]

/-- The closed form is the pattern of the word's sign and magnitude. -/
theorem isF64_sfToF64 (w : Word) :
    IsF64 (sfToF64 w) (sfSign w) (((sfMan w).toNat : ℚ) * 2 ^ (((sfExp w).toNat : ℤ) - 26)) := by
  by_cases h : (sfMan w).toNat = 0
  · rw [h, Nat.cast_zero, zero_mul]
    exact isF64_zero (sfToF64_toNat_of_man_eq_zero h)
  · have hp : msb (sfMan w).toNat ≤ 10 := msb_le_of_lt h (sfMan w).isLt
    obtain ⟨hlo, hhi⟩ := f64Exponent_bounds h (sfMan w).isLt (sfExp w).isLt
    have hexp : (f64Exponent (sfMan w).toNat (sfExp w).toNat : ℤ) =
        msb (sfMan w).toNat + (((sfExp w).toNat : ℤ) - 26) + 1023 := by
      rw [f64Exponent]
      omega
    have hd := sfToF64_toNat_of_man_ne_zero h
    rw [f64Fraction_eq (by omega)] at hd
    exact isF64_of_leading_one h (by omega) hexp (by omega) (by omega) hd

/-- The binary64 result has exactly the value of the pattern. -/
theorem f64Value_sfToF64 (w : Word) : f64Value (sfToF64 w) = some (sfValue w) := by
  rw [f64Value_of_isF64 (isF64_sfToF64 w), sfValue_eq, mul_assoc]

/-- Settles O31: the leading 1 of the mantissa is its most significant bit, which is the spec's `p`. -/
theorem f64PatternIsExact : Obligations.F64PatternIsExact := by
  refine ⟨fun w => ⟨fun h => ?_, fun p hlo hhi => ?_, f64Value_sfToF64 w⟩, rfl⟩
  · rw [sfToF64_toNat_of_man_eq_zero ((sfMan_toNat w).trans h), sfSign_toNat]
  · rw [← sfMan_toNat] at hlo hhi ⊢
    have hman : (sfMan w).toNat ≠ 0 := (Nat.two_pow_pos p).trans_le hlo |>.ne'
    have hmsb : msb (sfMan w).toNat = p := (Nat.log2_eq_iff hman).2 ⟨hlo, hhi⟩
    have hbounds := f64Exponent_bounds hman (sfMan w).isLt (sfExp w).isLt
    have hp := msb_le_of_lt hman (sfMan w).isLt
    rw [f64Exponent, hmsb, sfExp_toNat] at hbounds
    rw [hmsb] at hp
    refine ⟨hp, hbounds.1, hbounds.2, ?_⟩
    rw [sfToF64_toNat_of_man_ne_zero hman, f64Exponent, f64Fraction, hmsb, sfSign_toNat, sfExp_toNat, Nat.shiftLeft_eq,
      ← Nat.add_assoc]

/-- The fraction of a mantissa of 11 bits has its low 42 bits zero. -/
theorem f64Fraction_mod {m : Nat} (hp : msb m ≤ 10) : f64Fraction m % 2 ^ 42 = 0 := by
  rw [f64Fraction, Nat.shiftLeft_eq, show 52 - msb m = (10 - msb m) + 42 by omega, Nat.pow_add, ← Nat.mul_assoc]
  exact Nat.mul_mod_left _ _

/-- The low 42 bits are zero where the number is a multiple of `2^42`. -/
theorem low42_eq_zero {d : Data} (h : d.toNat % 2 ^ 42 = 0) : d.extractLsb' 0 42 = 0#42 := by
  apply BitVec.eq_of_toNat_eq
  rw [BitVec.extractLsb'_toNat, Nat.shiftRight_zero, h, BitVec.toNat_zero]

/-- Settles O32: a zero mantissa gives a zero; any other gives the exponent of R96 over a fraction of at most ten bits. -/
theorem f64NeverSubnormalOrNaN : Obligations.F64NeverSubnormalOrNaN := by
  intro w
  by_cases h : (sfMan w).toNat = 0
  · have hd := sfToF64_toNat_of_man_eq_zero h
    obtain ⟨-, hexp, hfrac⟩ := f64_fields_of_zero hd
    exact ⟨.inl ⟨hexp, hfrac⟩, low42_eq_zero (by omega)⟩
  · have hd := sfToF64_toNat_of_man_ne_zero h
    have hbounds := f64Exponent_bounds h (sfMan w).isLt (sfExp w).isLt
    have hmod := f64Fraction_mod (msb_le_of_lt h (sfMan w).isLt)
    obtain ⟨-, hexp, -⟩ := f64_fields_of_toNat (by omega) (f64Fraction_lt h (sfMan w).isLt) hd
    exact ⟨.inr (hexp ▸ hbounds), low42_eq_zero (by omega)⟩

/-- Settles O38: the integer is the signed magnitude `m * 2^e`, and the binary64 result has the pattern's value. -/
theorem q26Properties : Obligations.Q26Properties := by
  intro w
  refine ⟨?_, sfToQ26_flip w, ?_, by rw [f64Value_sfToF64, sfToQ26_div_eq_sfValue]⟩
  · rw [← Int.natAbs_eq_zero, sfToQ26_natAbs, sfMan_toNat]
    simp
  · rw [sfToQ26_natAbs, sfExp_toNat]
    exact Nat.mul_mod_left _ _

/-- Settles O21: the value and the sign bit of the closed form, in the bits of the operand. -/
theorem sfdCompletes : Obligations.SfdCompletes := fun _ raw =>
  ⟨sfToF64 (sfMask raw), rfl, by
    rw [f64Value_sfToF64, sfValue, sfSign_sfMask_toNat, sfExp_sfMask_toNat, sfMan_sfMask_toNat], by
    rw [f64Sign_sfToF64, sfSign_sfMask_toNat]⟩

/-- Settles O18: the composition law reduces `ASMD` to `SFD` on the number of the two bytes. -/
theorem asmdCompletes : Obligations.AsmdCompletes := by
  intro s off hi lo hr hhi hlo
  obtain ⟨hsign, hexp, hman⟩ := fields_of_bytes hi lo
  obtain ⟨-, hcomp, -⟩ := (compositionLaw s off).1 hi lo hr hhi hlo
  obtain ⟨d, hd, hval, hbit⟩ := sfdCompletes s (256 * hi.toNat + lo.toNat)
  refine ⟨d, hcomp.trans hd, ?_, hbit.trans hsign⟩
  rw [hval, hsign, hexp, hman]

end Sys2Proof.Machine
end

section
/-! SUPPORT. The source's algorithm in binary64 arithmetic (41_semifloat_codec.md section 1, R92, R99): a product of two
binary64 numbers is the pattern of the product of their magnitudes wherever that has one, so every order of the two
multiplications gives the pattern of the word's sign and magnitude. -/

namespace Sys2Proof.Machine

/-- A binary64 pattern is its three fields or-ed together. -/
theorem ofNat_f64_fields (d : Data) :
    BitVec.ofNat 64 ((f64Sign d).toNat <<< 63 ||| (f64Exp d).toNat <<< 52 ||| (f64Frac d).toNat) = d := by
  have hexp := (f64Exp d).isLt
  have hfrac := (f64Frac d).isLt
  rw [three_fields_eq_add hfrac (by omega), ← f64_toNat_eq_fields, BitVec.ofNat_toNat, BitVec.setWidth_eq]

/-- Equal magnitudes whose exponents differ by `j` have significands that differ by the factor `2^j`. -/
theorem significand_eq_of_magnitude_eq {a b j : Nat} {k l : ℤ} (h : (a : ℚ) * 2 ^ k = b * 2 ^ l) (hk : k = l + j) :
    a * 2 ^ j = b := by
  have hl : (2 : ℚ) ^ l ≠ 0 := zpow_ne_zero l two_ne_zero
  have hab : ((a * 2 ^ j : Nat) : ℚ) * 2 ^ l = b * 2 ^ l := by
    rw [← h, hk, zpow_add₀ two_ne_zero, zpow_natCast]
    push_cast
    ring
  exact_mod_cast mul_right_cancel₀ hl hab

/-- Of two equal magnitudes the leading 1 of the first is not above that of the second. -/
theorem leading_one_le_of_magnitude_eq {a b p q : Nat} {k l : ℤ} (ha : 2 ^ p ≤ a) (hb : b < 2 ^ (q + 1))
    (h : (a : ℚ) * 2 ^ k = b * 2 ^ l) : p + k ≤ q + l := by
  have hlt : (2 : ℚ) ^ (p + k) < 2 ^ (q + 1 + l) := by
    calc (2 : ℚ) ^ (p + k) = (2 ^ p : Nat) * 2 ^ k := by rw [zpow_add₀ two_ne_zero, zpow_natCast]; norm_cast
      _ ≤ a * 2 ^ k := by gcongr
      _ = b * 2 ^ l := h
      _ < (2 ^ (q + 1) : Nat) * 2 ^ l := by gcongr
      _ = 2 ^ (q + 1 + l) := by rw [zpow_add₀ two_ne_zero]; norm_cast
  have := (zpow_lt_zpow_iff_right₀ one_lt_two).1 hlt
  omega

/-- The leading 1 of a magnitude is at one place, whatever significand and exponent it is written with. -/
theorem leading_one_eq_of_magnitude_eq {a b p q : Nat} {k l : ℤ} (ha : 2 ^ p ≤ a ∧ a < 2 ^ (p + 1))
    (hb : 2 ^ q ≤ b ∧ b < 2 ^ (q + 1)) (h : (a : ℚ) * 2 ^ k = b * 2 ^ l) : p + k = q + l :=
  le_antisymm (leading_one_le_of_magnitude_eq ha.1 hb.2 h) (leading_one_le_of_magnitude_eq hb.1 ha.2 h.symm)

/-- The normal result of `f64OfScaled`: the number's leading 1 fixes the exponent, and the significand, which is the
number shifted so that the leading 1 is bit 52, fixes the fraction. -/
theorem f64OfScaled_normal {s : BitVec 1} {n e f : Nat} {k : ℤ} (hn : n ≠ 0) (hk : (e : ℤ) = msb n + k + 1023)
    (he : 1 ≤ e) (he' : e ≤ 2046)
    (hf : (msb n ≤ 52 ∧ n * 2 ^ (52 - msb n) = 2 ^ 52 + f) ∨ (52 < msb n ∧ (2 ^ 52 + f) * 2 ^ (msb n - 52) = n)) :
    f64OfScaled s n k = some (BitVec.ofNat 64 (s.toNat <<< 63 ||| e <<< 52 ||| f)) := by
  have hexp : ((msb n : ℤ) + k + 1023).toNat = e := by omega
  unfold f64OfScaled
  rw [if_neg hn]
  dsimp only
  rcases hf with ⟨hp, hsig⟩ | ⟨hp, hsig⟩
  · have hfrac : (n - 2 ^ msb n) * 2 ^ (52 - msb n) = f := by
      rw [Nat.sub_mul, hsig, ← Nat.pow_add, Nat.add_sub_cancel' hp, Nat.add_sub_cancel_left]
    rw [if_pos ⟨by omega, by omega, fun h => absurd hp (Nat.not_le.2 h)⟩, if_pos hp, hexp, hfrac]
  · have hmod : n % 2 ^ (msb n - 52) = 0 := Nat.mod_eq_zero_of_dvd (Dvd.intro_left _ hsig)
    have hfrac : n / 2 ^ (msb n - 52) - 2 ^ 52 = f := by
      rw [Nat.div_eq_of_eq_mul_left (Nat.two_pow_pos _) hsig.symm, Nat.add_sub_cancel_left]
    rw [if_pos ⟨by omega, by omega, fun _ => hmod⟩, if_neg (Nat.not_le.2 hp), hexp, hfrac]

/-- The pattern of a scaled number, by its sign and magnitude: where a pattern stands for it, it is that pattern. -/
theorem f64OfScaled_of_isF64 {d : Data} {s : BitVec 1} {n : Nat} {k : ℤ} (h : IsF64 d s (n * 2 ^ k)) :
    f64OfScaled s n k = some d := by
  obtain ⟨N, K, hparts, hmag⟩ := h
  obtain ⟨rfl, ⟨he, hf, rfl, -⟩ | ⟨he, he', rfl, rfl⟩⟩ := f64Parts_eq_some_iff.1 hparts
  · have hn : n = 0 := by simpa [zpow_ne_zero] using hmag.symm
    have hd := ofNat_f64_fields d
    rw [he, hf, Nat.zero_shiftLeft, Nat.or_zero, Nat.or_zero] at hd
    rw [f64OfScaled, if_pos hn, hd]
  · have hexp := (f64Exp d).isLt
    have hfrac := (f64Frac d).isLt
    have hn : n ≠ 0 := by
      rintro rfl
      have hpos : (0 : ℚ) < (2 ^ 52 + (f64Frac d).toNat : Nat) * 2 ^ (((f64Exp d).toNat : ℤ) - 1075) := by positivity
      rw [hmag, Nat.cast_zero, zero_mul] at hpos
      exact lt_irrefl _ hpos
    have hlead : (52 : Nat) + (((f64Exp d).toNat : ℤ) - 1075) = msb n + k :=
      leading_one_eq_of_magnitude_eq ⟨by omega, by omega⟩ (msb_spec hn) hmag
    rw [f64OfScaled_normal hn (e := (f64Exp d).toNat) (f := (f64Frac d).toNat) (by omega) (by omega) (by omega) ?_,
      ofNat_f64_fields]
    rcases Nat.lt_or_ge 52 (msb n) with hp | hp
    · exact .inr ⟨hp, significand_eq_of_magnitude_eq hmag (by omega)⟩
    · exact .inl ⟨hp, significand_eq_of_magnitude_eq hmag.symm (by omega)⟩

/-- The product of two patterns, by their signs and magnitudes. -/
theorem f64Mul_of_isF64 {a b d : Data} {s t : BitVec 1} {u v : ℚ} (ha : IsF64 a s u) (hb : IsF64 b t v)
    (hd : IsF64 d (s ^^^ t) (u * v)) : f64Mul a b = some d := by
  obtain ⟨n, k, hpa, rfl⟩ := ha
  obtain ⟨m, l, hpb, rfl⟩ := hb
  have hmag : ((n : ℚ) * 2 ^ k) * (m * 2 ^ l) = (n * m : Nat) * 2 ^ (k + l) := by
    rw [zpow_add₀ two_ne_zero]
    push_cast
    ring
  rw [hmag] at hd
  simp only [f64Mul, hpa, hpb]
  exact f64OfScaled_of_isF64 hd

/-- A number of at most 53 bits with an exponent well inside the range has a pattern of either sign. -/
theorem exists_isF64 (s : BitVec 1) {n : Nat} {k : ℤ} (hn : n < 2 ^ 53) (hk : -1022 ≤ k) (hk' : k ≤ 971) :
    ∃ d, IsF64 d s (n * 2 ^ k) := by
  have hs := s.isLt
  by_cases h : n = 0
  · refine ⟨BitVec.ofNat 64 (s.toNat * 2 ^ 63), ?_⟩
    rw [h, Nat.cast_zero, zero_mul]
    exact isF64_zero (by rw [BitVec.toNat_ofNat, Nat.mod_eq_of_lt (by omega)])
  · have hp : msb n ≤ 52 := msb_le_of_lt h hn
    obtain ⟨hlo, hhi⟩ := significand_bounds h hp
    obtain ⟨e, he⟩ : ∃ e : Nat, (e : ℤ) = msb n + k + 1023 := ⟨_, Int.toNat_of_nonneg (by omega)⟩
    refine ⟨BitVec.ofNat 64 (s.toNat * 2 ^ 63 + (e * 2 ^ 52 + (n * 2 ^ (52 - msb n) - 2 ^ 52))),
      isF64_of_leading_one h hp he (by omega) (by omega) ?_⟩
    rw [BitVec.toNat_ofNat, Nat.mod_eq_of_lt (by omega)]

/-- The source's sign is 1 or -1. -/
theorem isF64_sourceSign (w : Word) : IsF64 (sourceSign w) (sfSign w) 1 := by
  rw [sourceSign]
  rcases BitVec.eq_zero_or_eq_one (sfSign w) with h | h <;> rw [h] <;>
    exact ⟨2 ^ 52, -52, by decide, by norm_num⟩

/-- The three factors of the source's formula multiply to the magnitude of the word. -/
theorem source_magnitude (w : Word) :
    ((sfMan w).toNat : ℚ) * 2 ^ (-11 : ℤ) * ((1 : Nat) * 2 ^ (((sfExp w).toNat : ℤ) - 15)) =
      (sfMan w).toNat * 2 ^ (((sfExp w).toNat : ℤ) - 26) := by
  rw [show ((sfExp w).toNat : ℤ) - 26 = -11 + (((sfExp w).toNat : ℤ) - 15) by ring, zpow_add₀ two_ne_zero]
  push_cast
  ring

/-- The formula in each order of its multiplications: the intermediate product has a pattern, and the last one's is
the closed form. -/
theorem sourceFormula_eq (o : MulOrder) (w : Word) : sourceFormula o w = some (sfToF64 w) := by
  have hm := (sfMan w).isLt
  have he := (sfExp w).isLt
  have hsign := isF64_sourceSign w
  have hresult := isF64_sfToF64 w
  rw [← source_magnitude] at hresult
  obtain ⟨f, hf⟩ := exists_isF64 0#1 (n := (sfMan w).toNat) (k := -11) (by omega) (by decide) (by decide)
  obtain ⟨p, hp⟩ := exists_isF64 0#1 (n := 1) (k := ((sfExp w).toNat : ℤ) - 15) (by decide) (by omega) (by omega)
  have hfraction : sourceFraction w = some f := f64OfScaled_of_isF64 hf
  have hpower : sourcePower w = some p := f64OfScaled_of_isF64 hp
  simp only [sourceFormula, hfraction, hpower]
  cases o with
  | asWritten =>
    obtain ⟨x, hx⟩ := exists_isF64 (sfSign w) (n := (sfMan w).toNat) (k := -11) (by omega) (by decide) (by decide)
    rw [f64Mul_of_isF64 hsign hf (d := x) (by rwa [BitVec.xor_zero, one_mul])]
    exact f64Mul_of_isF64 hx hp (by rwa [BitVec.xor_zero])
  | signLast =>
    obtain ⟨x, hx⟩ := exists_isF64 0#1 (n := (sfMan w).toNat) (k := ((sfExp w).toNat : ℤ) - 26) (by omega) (by omega)
      (by omega)
    rw [← source_magnitude] at hx
    rw [f64Mul_of_isF64 hf hp hx]
    exact f64Mul_of_isF64 hsign hx (by rwa [BitVec.xor_zero, one_mul])
  | fractionLast =>
    obtain ⟨x, hx⟩ := exists_isF64 (sfSign w) (n := 1) (k := ((sfExp w).toNat : ℤ) - 15) (by decide) (by omega)
      (by omega)
    rw [f64Mul_of_isF64 hsign hp (d := x) (by rwa [BitVec.xor_zero, one_mul])]
    exact f64Mul_of_isF64 hx hf (by rwa [BitVec.xor_zero, mul_comm])

/-- Settles O34: the formula gives the closed form, and so does the special case, whose pattern is the closed form of
`0x8000`. -/
theorem sourceAlgorithmAgrees : Obligations.SourceAlgorithmAgrees := by
  refine ⟨sourceFormula_eq, fun o raw => ?_⟩
  unfold sourceDecode
  split_ifs with h
  · rw [h]
    rfl
  · exact sourceFormula_eq o (sfMask raw)

end Sys2Proof.Machine
end
